-- ==== Sys2Proof/Word.lean ====
section
/-! DEFINITION. The word types of the block: its bytes, 7-bit masks and patterns, 4-bit counters, VideoRAM
addresses and 32-bit request words (00_scope.md R7, 10_state.md R10, 30_encoding.md R51). -/

namespace Sys2Proof

/-- One byte; bit 0 is the least significant bit (00_scope.md R7). -/
abbrev Byte := BitVec 8

/-- A 7-bit keyboard row mask (10_state.md R19). -/
abbrev RowMask := BitVec 7

/-- A 7-bit display pattern (10_state.md R13). -/
abbrev Pattern := BitVec 7

/-- A 4-bit persistence counter (10_state.md R12, 42_persistence.md R93). -/
abbrev Count := BitVec 4

/-- The `ADDR` field of a request word: 16 bits (30_encoding.md R51). -/
abbrev Addr := BitVec 16

/-- A request word: 32 bits, one length only (30_encoding.md R51, R64). -/
abbrev Request := BitVec 32

end Sys2Proof
end

