-- ==== Sys2Proof/Syntax.lean ====
section
/-! DEFINITION. The operations of the block with the inputs each carries (30_encoding.md R50, R51; 10_state.md R19),
one constructor per row of spec/opcode_table.json. -/

namespace Sys2Proof

/-- One operation of the block with its inputs. The document's names are those of 30_encoding.md R63. -/
inductive Instr where
  /-- The idle step (R54). -/
  | nop
  /-- The document's `read()` (R70): the three row masks the read sees (log 23). -/
  | dpread (row0 row1 row2 : RowMask)
  /-- The document's `write(value)` (R71). -/
  | dpwrite (value : Byte)
  /-- The document's `readPortB()` (R81). -/
  | pbread
  /-- The document's `writePortB(value)` (R72). -/
  | pbwrite (value : Byte)
  /-- The sampling tick (R80): `POS`, whether the cassette input is positive. -/
  | stick (pos : Bool)
  /-- The persistence tick (R90). -/
  | ptick
  /-- The document's `read(address)` (R100). -/
  | vread (address : Addr)
  /-- The document's `write(address, value)` (R101). -/
  | vwrite (address : Addr) (value : Byte)
  /-- The per-frame render pass (R102): the flip-screen flag. -/
  | render (flip : Bool)
  /-- The input poll (R110): reset input, interrupt input, run-mode input. -/
  | poll (rs st md : Bool)
  /-- The machine reset (R140). -/
  | reset
  /-- Reserved code 0xC (R54): a row of the table of its own, with the meaning of NOP (log 6). -/
  | nopReservedC
  /-- Reserved code 0xD (R54; log 6). -/
  | nopReservedD
  /-- Reserved code 0xE (R54; log 6). -/
  | nopReservedE
  /-- Reserved code 0xF (R54; log 6). -/
  | nopReservedF
  deriving DecidableEq, Repr

/-- The twelve mnemonics of 30_encoding.md R50. -/
inductive Mnemonic where
  | NOP | DPREAD | DPWRITE | PBREAD | PBWRITE | STICK | PTICK | VREAD | VWRITE | RENDER | POLL | RESET
  deriving DecidableEq, Repr

/-- Who starts an operation (30_encoding.md R50, column "what starts it"). -/
inductive Source where
  | nothing | busMaster | samplingTick | persistenceTick | frameSource | inputPoll | resetSource
  deriving DecidableEq, Repr

/-- The pseudo-operations of 30_encoding.md R62. -/
inductive Pseudo where
  /-- A real operation, which stands for itself. -/
  | op (i : Instr)
  /-- `SELROW r`, `r` in 0..2. -/
  | selrow (r : Fin 3)
  /-- `SELDIG d`, `d` in 0..5. -/
  | seldig (d : Fin 6)
  /-- `SHOW d, p`, `p` in 0..0x7F. -/
  | showDigit (d : Fin 6) (p : Pattern)
  /-- `TONE l`, `l` in 0..1. -/
  | tone (l : Bool)
  /-- `REPEAT n: <line>`. -/
  | rep (n : Nat) (line : Pseudo)
  deriving DecidableEq, Repr

end Sys2Proof
end

