-- ==== Sys2Proof/Decode.lean ====
section
/-! DEFINITION. Decoding a 32-bit request word, total on all 2^32 words ("no word is illegal", 30_encoding.md R54), and
encoding an operation, both written from the formats of R51 and the codes of R52. -/

namespace Sys2Proof

/-- `OP`, bits 31:28. -/
def opField (w : Request) : BitVec 4 := w.extractLsb' 28 4
/-- `ROW0`, bits 6:0 (format K). -/
def row0Field (w : Request) : RowMask := w.extractLsb' 0 7
/-- `ROW1`, bits 14:8 (format K). -/
def row1Field (w : Request) : RowMask := w.extractLsb' 8 7
/-- `ROW2`, bits 22:16 (format K). -/
def row2Field (w : Request) : RowMask := w.extractLsb' 16 7
/-- `DATA`, bits 7:0 (formats D and V). -/
def dataField (w : Request) : Byte := w.extractLsb' 0 8
/-- `ADDR`, bits 23:8 (format V). -/
def addrField (w : Request) : Addr := w.extractLsb' 8 16
/-- `ARG[0]` (format S: `POS`, `FLIP`, `RS`). -/
def arg0Field (w : Request) : Bool := w.getLsbD 0
/-- `ARG[1]` (format S: `ST`). -/
def arg1Field (w : Request) : Bool := w.getLsbD 1
/-- `ARG[2]` (format S: `MD`). -/
def arg2Field (w : Request) : Bool := w.getLsbD 2

/-- The operation a request word names, by `OP` alone (30_encoding.md R51, R52, R64). Unused bits are ignored (R53);
codes 0xC to 0xF are the reserved codes, with the meaning of NOP (R54; log 6). -/
def decode (w : Request) : Instr :=
  match (opField w).toNat with
  | 0x0 => .nop
  | 0x1 => .dpread (row0Field w) (row1Field w) (row2Field w)
  | 0x2 => .dpwrite (dataField w)
  | 0x3 => .pbread
  | 0x4 => .pbwrite (dataField w)
  | 0x5 => .stick (arg0Field w)
  | 0x6 => .ptick
  | 0x7 => .vread (addrField w)
  | 0x8 => .vwrite (addrField w) (dataField w)
  | 0x9 => .render (arg0Field w)
  | 0xA => .poll (arg0Field w) (arg1Field w) (arg2Field w)
  | 0xB => .reset
  | 0xC => .nopReservedC
  | 0xD => .nopReservedD
  | 0xE => .nopReservedE
  | _ => .nopReservedF

/-- A word from its `OP` and `ARG`, with bits 27:24 written as 0 (30_encoding.md R51, R53). -/
def requestWord (op : BitVec 4) (arg : BitVec 24) : Request := op ++ 0#4 ++ arg

/-- Format N: no operand. -/
def argN : BitVec 24 := 0
/-- Format D: one data byte. -/
def argD (v : Byte) : BitVec 24 := 0#16 ++ v
/-- Format K: the three row masks. -/
def argK (r0 r1 r2 : RowMask) : BitVec 24 := 0#1 ++ r2 ++ 0#1 ++ r1 ++ 0#1 ++ r0
/-- Format S: three single-bit inputs, the unused ones 0. -/
def argS (b2 b1 b0 : Bool) : BitVec 24 := 0#21 ++ BitVec.ofBool b2 ++ BitVec.ofBool b1 ++ BitVec.ofBool b0
/-- Format V: address and data. -/
def argV (a : Addr) (v : Byte) : BitVec 24 := a ++ v

/-- The request word of an operation, "An assembler writes [the unused bits] as 0" (30_encoding.md R51 to R53). -/
def encode : Instr → Request
  | .nop => requestWord 0x0 argN
  | .dpread r0 r1 r2 => requestWord 0x1 (argK r0 r1 r2)
  | .dpwrite v => requestWord 0x2 (argD v)
  | .pbread => requestWord 0x3 argN
  | .pbwrite v => requestWord 0x4 (argD v)
  | .stick p => requestWord 0x5 (argS false false p)
  | .ptick => requestWord 0x6 argN
  | .vread a => requestWord 0x7 (argV a 0)
  | .vwrite a v => requestWord 0x8 (argV a v)
  | .render f => requestWord 0x9 (argS false false f)
  | .poll rs st md => requestWord 0xA (argS md st rs)
  | .reset => requestWord 0xB argN
  | .nopReservedC => requestWord 0xC argN
  | .nopReservedD => requestWord 0xD argN
  | .nopReservedE => requestWord 0xE argN
  | .nopReservedF => requestWord 0xF argN

/-- The mnemonic of an operation (30_encoding.md R50); a reserved code "decode[s] as NOP" (R54). -/
def Instr.mnemonic : Instr → Mnemonic
  | .nop => .NOP
  | .dpread _ _ _ => .DPREAD
  | .dpwrite _ => .DPWRITE
  | .pbread => .PBREAD
  | .pbwrite _ => .PBWRITE
  | .stick _ => .STICK
  | .ptick => .PTICK
  | .vread _ => .VREAD
  | .vwrite _ _ => .VWRITE
  | .render _ => .RENDER
  | .poll _ _ _ => .POLL
  | .reset => .RESET
  | .nopReservedC => .NOP
  | .nopReservedD => .NOP
  | .nopReservedE => .NOP
  | .nopReservedF => .NOP

/-- What starts an operation (30_encoding.md R50). -/
def Mnemonic.source : Mnemonic → Source
  | .NOP => .nothing
  | .DPREAD => .busMaster
  | .DPWRITE => .busMaster
  | .PBREAD => .busMaster
  | .PBWRITE => .busMaster
  | .STICK => .samplingTick
  | .PTICK => .persistenceTick
  | .VREAD => .busMaster
  | .VWRITE => .busMaster
  | .RENDER => .frameSource
  | .POLL => .inputPoll
  | .RESET => .resetSource

/-- The bits of a word that its operation's format uses (30_encoding.md R51); all others are ignored (R53). -/
def usedBits (w : Request) : Request :=
  match (opField w).toNat with
  | 0x1 => 0xF07F7F7F
  | 0x2 => 0xF00000FF
  | 0x4 => 0xF00000FF
  | 0x5 => 0xF0000001
  | 0x7 => 0xF0FFFF00
  | 0x8 => 0xF0FFFFFF
  | 0x9 => 0xF0000001
  | 0xA => 0xF0000007
  | _ => 0xF0000000

/-- One row of the table of operation codes (30_encoding.md R52). -/
structure OpRow where
  mnemonic : Mnemonic
  matchBits : Request
  mask : Request
  deriving DecidableEq, Repr

/-- 30_encoding.md R52, row by row; the last four are the reserved codes, "decoded as NOP". -/
def opTable : List OpRow :=
  [ ⟨.NOP, 0x00000000, 0xF0000000⟩, ⟨.DPREAD, 0x10000000, 0xF0000000⟩,
    ⟨.DPWRITE, 0x20000000, 0xF0000000⟩, ⟨.PBREAD, 0x30000000, 0xF0000000⟩,
    ⟨.PBWRITE, 0x40000000, 0xF0000000⟩, ⟨.STICK, 0x50000000, 0xF0000000⟩,
    ⟨.PTICK, 0x60000000, 0xF0000000⟩, ⟨.VREAD, 0x70000000, 0xF0000000⟩ ] ++
  [ ⟨.VWRITE, 0x80000000, 0xF0000000⟩, ⟨.RENDER, 0x90000000, 0xF0000000⟩,
    ⟨.POLL, 0xA0000000, 0xF0000000⟩, ⟨.RESET, 0xB0000000, 0xF0000000⟩,
    ⟨.NOP, 0xC0000000, 0xF0000000⟩, ⟨.NOP, 0xD0000000, 0xF0000000⟩,
    ⟨.NOP, 0xE0000000, 0xF0000000⟩, ⟨.NOP, 0xF0000000, 0xF0000000⟩ ]

/-- The instruction the decoder reads from a table word of `nbits` bits. "The request word is 32 bits, one length
only" (30_encoding.md R51): bits above `nbits` are 0, and more than 32 bits are no request (log 8). -/
def decodeTableWord (nbits w : Nat) : Option Instr :=
  if nbits ≤ 32 then some (decode (BitVec.ofNat 32 (w % 2 ^ nbits))) else none

end Sys2Proof
end

