-- ==== Sys2Proof/Config.lean ====
section
/-! DEFINITION. The parameters the spec leaves open (00_scope.md R5) and the constants it fixes (R6; log 24). -/

namespace Sys2Proof

/-- The three parameters a rule depends on (00_scope.md R5). A state carries one `Config` and no step writes it, so
that a claim about every state is a claim about every choice of parameters (log 3). -/
structure Config where
  /-- `VA_W`: the width in bits of a VideoRAM address. -/
  vaW : Nat
  /-- `ROW_BYTES`: bytes of VideoRAM per pixel row of the render pass. -/
  rowBytes : Nat
  /-- `ROWS`: pixel rows of the render pass. -/
  rows : Nat
  deriving DecidableEq, Repr

/-- `VRAM_SIZE = 2^VA_W`, "not free" (00_scope.md R5, D13). -/
def Config.vramSize (c : Config) : Nat := 2 ^ c.vaW

/-- What R5 asks of the parameters: `1 <= VA_W <= 16`, `ROW_BYTES >= 1`, `ROWS >= 1`,
`ROW_BYTES * ROWS <= VRAM_SIZE`. -/
abbrev Config.wf (c : Config) : Prop :=
  1 ≤ c.vaW ∧ c.vaW ≤ 16 ∧ 1 ≤ c.rowBytes ∧ 1 ≤ c.rows ∧ c.rowBytes * c.rows ≤ c.vramSize

/-- The parameters of `State.reset`. `VA_W = 16` is the spec's default (00_scope.md R5); `ROW_BYTES = ROWS = 2` are
those of 95_test_vectors.md 2.9 and P4. DESIGN CHOICE (log 3), unsafe only for a claim about these very numbers. -/
def Config.default : Config := { vaW := 16, rowBytes := 2, rows := 2 }

/-- `SAMPLE_RATE`, OPEN and informative: "no rule uses it" (00_scope.md R5, D18; log 18). -/
opaque Config.sampleRate : Nat

/-- `PERSIST_RATE`, OPEN and informative: "no rule uses it" (00_scope.md R5, D18; log 18). -/
opaque Config.persistRate : Nat

/-- `N_ROWS` (00_scope.md R6). -/
abbrev N_ROWS : Nat := 3
/-- `N_DIGITS` (00_scope.md R6). -/
abbrev N_DIGITS : Nat := 6
/-- `ROW_LO` (00_scope.md R6). -/
abbrev ROW_LO : Nat := 0
/-- `ROW_HI` (00_scope.md R6). -/
abbrev ROW_HI : Nat := 2
/-- `DIG_LO` (00_scope.md R6). -/
abbrev DIG_LO : Nat := 4
/-- `DIG_HI` (00_scope.md R6). -/
abbrev DIG_HI : Nat := 9
/-- `CNT_MAX` (00_scope.md R6). -/
abbrev CNT_MAX : Nat := 15
/-- `PERSIST_INIT` (00_scope.md R6). -/
def PERSIST_INIT : Count := 15
/-- `THRESH` (00_scope.md R6, D24). -/
def THRESH : Nat := 8
/-- `IDLE_READ` (00_scope.md R6). -/
def IDLE_READ : Byte := 0xFF

end Sys2Proof
end

