-- ==== Sys2Proof/Machine/State.lean ====
section
/-! DEFINITION. The state of the block (10_state.md R10), the output of a step (00_scope.md R9), power-on (R26, R141) and
the reasons a step can stop. -/

namespace Sys2Proof.Machine

/-- Six like things, one per digit 0 to 5 (10_state.md R10: `CNT[0..5]`, `LATCH[0..5]`). -/
structure Digits (α : Type) where
  d0 : α
  d1 : α
  d2 : α
  d3 : α
  d4 : α
  d5 : α
  deriving DecidableEq, Repr

/-- VideoRAM as (address, byte) pairs, in the canonical form of `Memory.wf` (10_state.md R16; log 5). -/
abbrev Memory := List Host.Cell

/-- A cassette output level: +1.0 or -1.0, "no other level" (30_encoding.md R60). -/
inductive Level where
  | plus
  | minus
  deriving DecidableEq, Repr

/-- A rendered frame: its lines from the top, the pixels of a line from the left; the pixel function of
43_video.md R102 as plain data (log 12). -/
structure Frame where
  lines : List (List Bool)
  deriving DecidableEq, Repr

/-- What one operation produces, "Every field of `Output` is absent unless the rule of the operation says it is
produced" (00_scope.md R9). -/
structure Output where
  /-- The byte a read operation returns. -/
  rdata : Option Byte
  /-- The cassette output event, `emit CassOut(l)`. -/
  cass : Option Level
  /-- The frame of a render pass. -/
  frame : Option Frame
  deriving DecidableEq, Repr

/-- No output. -/
def Output.nothing : Output := { rdata := none, cass := none, frame := none }

/-- The complete state of the block: the nine items of 10_state.md R10, "Nothing else is state". -/
structure Block where
  /-- `PB`, the last byte written to the shared control port (R11; log 22). -/
  pb : Byte
  /-- `CNT[0..5]`, the persistence counters (R12). -/
  cnt : Digits Count
  /-- `LATCH[0..5]`, the pattern last written to each digit (R13). -/
  latch : Digits Pattern
  /-- `RUN`, the run length of positive samples, "no upper bound" (R14). -/
  run : Nat
  /-- `CBIT`, the classified bit (R15), the one status flag (R22). -/
  cbit : Bool
  /-- `VRAM` (R16). -/
  vram : Memory
  /-- `RSTL`, the reset line to the CPU; true is asserted (R17). -/
  rstl : Bool
  /-- `IRQL`, the interrupt line to the CPU; true is asserted (R17). -/
  irql : Bool
  /-- `CLVL`, the level last sent: false is +1.0, true is -1.0 (R18). -/
  clvl : Bool
  deriving DecidableEq, Repr

/-- The block with what the model adds to it: the parameters, the output of the latest step, and the requests the host
has still to perform, in its order. -/
structure State extends Block where
  /-- The parameters of the block; no step writes them (00_scope.md R5; log 3). -/
  cfg : Config
  /-- The `Output` of the latest step (00_scope.md R9; log 2). -/
  out : Output
  /-- The host's request words not yet performed, the next one first (20_memory.md R40; log 1). -/
  pending : List Request
  deriving DecidableEq, Repr

/-- The reasons a step of the block can fault. There are none: "No operation can fail, trap, fault, hang, block or be
refused, for any state and any input" (60_exceptions.md R120), so nothing raises one. -/
inductive Fault where
  deriving DecidableEq, Repr

/-- The reasons a step can be refused. -/
inductive Refusal where
  /-- Raised by an arm of `exec` whose instruction has no meaning yet; no arm does. Safe. -/
  | notModelled (mnemonic : String)
  /-- Raised by `stepPins` alone, when two strobes of the signal interface are active in one step: "at most one strobe
  is active in any step" (20_memory.md R45), and a host that overlaps operations "is outside the spec"
  (70_reset_and_hazards.md R158, U4). Safe: the model says nothing of such a host (log 15). -/
  | overlappingStrobes
  deriving DecidableEq, Repr

/-- The block at power-on: `PB` and every `CNT[i]` zero, "Every other item holds an unspecified value", taken from
`draw` as "a free input of the initial state" (10_state.md R26, 70_reset_and_hazards.md R141). -/
def State.powerOn (c : Config) (draw : Block) : State :=
  { toBlock := { draw with pb := 0, cnt := ⟨0, 0, 0, 0, 0, 0⟩ }
    cfg := c, out := Output.nothing, pending := [] }

/-- The draw in which every unspecified item is zero, the `S0` of 95_test_vectors.md. DESIGN CHOICE (log 4, log 5),
unsafe: the spec gives these items no value. -/
def Block.zeroDraw : Block :=
  { pb := 0, cnt := ⟨0, 0, 0, 0, 0, 0⟩, latch := ⟨0, 0, 0, 0, 0, 0⟩, run := 0, cbit := false, vram := [],
    rstl := false, irql := false, clvl := false }

/-- The machine right after power-on, at the zero draw and the default parameters (10_state.md R26; logs 3, 4, 5). -/
def State.reset : State := State.powerOn Config.default Block.zeroDraw

end Sys2Proof.Machine
end

