-- ==== Sys2Proof/Machine/Operands.lean ====
section
/-! DEFINITION. The operand forms: the fields of the Port B byte (30_encoding.md R55), the select decode (R56), the
data-port byte (R57), read results (R58, R59), levels (R60), the VideoRAM address (R51) and the sample input (R85). -/

namespace Sys2Proof.Machine

/-- `SEL = (PB >> 1) & 0xF` (30_encoding.md R55, 90_conflicts.md C1). -/
def selField (b : Byte) : Nat := ((b >>> 1) &&& 0xF).toNat
/-- `MODE = (PB >> 5) & 1` (30_encoding.md R55). -/
def modeField (b : Byte) : Bool := b.getLsbD 5
/-- `LVL = (PB >> 7) & 1` (30_encoding.md R55). -/
def lvlField (b : Byte) : Bool := b.getLsbD 7

/-- What a select index selects (30_encoding.md R56). -/
inductive Target where
  | row (r : Fin N_ROWS)
  | digit (d : Fin N_DIGITS)
  | nothing
  deriving DecidableEq, Repr

/-- `Target(SEL)` (30_encoding.md R56): 0 to 2 a row, 4 to 9 digit `SEL - 4`, 3 and 10 to 15 nothing. -/
def target (sel : Nat) : Target :=
  if ROW_LO ≤ sel ∧ sel ≤ ROW_HI then .row (Fin.ofNat N_ROWS sel)
  else if DIG_LO ≤ sel ∧ sel ≤ DIG_HI then .digit (Fin.ofNat N_DIGITS (sel - DIG_LO))
  else .nothing

/-- `EN = value[7]` of the data-port write byte (30_encoding.md R57). -/
def enField (v : Byte) : Bool := v.getLsbD 7
/-- `PAT = value[6:0]` of the data-port write byte; the pattern decode is the identity (30_encoding.md R57). -/
def patField (v : Byte) : Pattern := v.extractLsb' 0 7

/-- `zext_8` of a row mask: bit 7 of the result is 0 (30_encoding.md R58; log 9). -/
def zext8 (m : RowMask) : Byte := m.setWidth 8

/-- The row mask a row number names. -/
def rowMask (r0 r1 r2 : RowMask) : Fin 3 → RowMask
  | 0 => r0
  | 1 => r1
  | 2 => r2

/-- The data-port read result (30_encoding.md R58). -/
def rowRead (r0 r1 r2 : RowMask) : Target → Byte
  | .row r => zext8 (rowMask r0 r1 r2 r)
  | .digit _ => IDLE_READ
  | .nothing => IDLE_READ

/-- The Port B read result (30_encoding.md R59). -/
def portBRead (pb : Byte) (cbit : Bool) : Byte :=
  if modeField pb then IDLE_READ else BitVec.ofBool (!cbit) ++ 0x7F#7

/-- `Level(l)` (30_encoding.md R60). -/
def Level.ofBit (l : Bool) : Level := if l then .minus else .plus

/-- The value of a level, `LEVEL_HI = +1.0` or `LEVEL_LO = -1.0` (00_scope.md R6); both are whole numbers. -/
def Level.amplitude : Level → Int
  | .plus => 1
  | .minus => -1

/-- The index the block sees: `ADDR[VA_W-1:0]` (30_encoding.md R51, 20_memory.md R32; log 7). -/
def vramIndex (c : Config) (a : Addr) : Nat := a.toNat % 2 ^ c.vaW

/-- `POS`: whether the amplitude is greater than zero; zero is non-positive (10_state.md R19, 41_cassette.md R85, G3;
log 16). The host computes it; the amplitude never enters the block. -/
def samplePos (amplitude : Rat) : Bool := 0 < amplitude

end Sys2Proof.Machine
end

