-- ==== Sys2Proof/Machine/Flags.lean ====
section
/-! DEFINITION. The block's one status flag `CBIT` (10_state.md R22) and how a sample updates it and `RUN`
(41_cassette.md R80, R83). -/

namespace Sys2Proof.Machine

/-- `Classify(n)`: 1 below 8, 0 from 8 on (41_cassette.md R83); never applied to 0. -/
def classify (n : Nat) : Bool := n < THRESH

/-- `RUN` after a sample (41_cassette.md R80). -/
def nextRun (pos : Bool) (run : Nat) : Nat := if pos then run + 1 else 0

/-- `CBIT` after a sample: written only when a non-positive sample ends a run (41_cassette.md R80, 10_state.md R15). -/
def nextCbit (pos : Bool) (run : Nat) (cbit : Bool) : Bool :=
  if pos then cbit else if run ≠ 0 then classify run else cbit

end Sys2Proof.Machine
end

