-- ==== Sys2Proof/Machine/Memory.lean ====
section
/-! DEFINITION. VideoRAM: reading and writing one byte of the flat buffer (20_memory.md R32, 00_scope.md R8) in its
canonical form. -/

namespace Sys2Proof.Machine

/-- What an address that no entry lists reads as. The spec gives VideoRAM no contents at power-on (10_state.md R26); a
draw lists the bytes that differ from this one. DESIGN CHOICE (log 5), unsafe for a claim about `State.reset` alone. -/
def Memory.unlisted : Byte := 0x00

/-- `MemRead(a, 1)`: the byte `VRAM[a]` (00_scope.md R8). -/
def Memory.read : Memory → Nat → Byte
  | [], _ => Memory.unlisted
  | (k, v) :: rest, a => if k = a then v else Memory.read rest a

/-- The memory without its entries for address `a`. -/
def Memory.dropAddr (m : Memory) (a : Nat) : Memory := m.filter (fun cell => cell.1 != a)

/-- The memory with an entry for `a` put before the first greater address. -/
def Memory.place : Memory → Nat → Byte → Memory
  | [], a, v => [(a, v)]
  | cell :: rest, a, v => if a < cell.1 then (a, v) :: cell :: rest else cell :: Memory.place rest a v

/-- `MemWrite(a, 1, v)`: `VRAM[a] <- v` (00_scope.md R8). Writing what an unlisted address reads as removes the entry. -/
def Memory.write (m : Memory) (a : Nat) (v : Byte) : Memory :=
  if v = Memory.unlisted then m.dropAddr a else (m.dropAddr a).place a v

/-- The canonical form: addresses strictly rising, and no entry equal to what an unlisted address reads as. -/
abbrev Memory.wf (m : Memory) : Prop :=
  m.Pairwise (fun x y => x.1 < y.1) ∧ ∀ cell ∈ m, cell.2 ≠ Memory.unlisted

/-- Every listed address is one of the `size` bytes of the buffer (10_state.md R16). -/
abbrev Memory.within (m : Memory) (size : Nat) : Prop := ∀ cell ∈ m, cell.1 < size

end Sys2Proof.Machine
end

