-- ==== Sys2Proof/Machine/Ops.lean ====
section
/-! DEFINITION. The shared operations: ending an operation with its new block state and its output, the outputs, and the
access to the six-element arrays.

There is no operation for taking an exception and none for returning from one: "nothing traps", "no state is saved, no
mode changes, no vector is read", "There is no return operation" (60_exceptions.md R120, R126). -/

namespace Sys2Proof.Machine

/-- The outcome type of every meaning. -/
abbrev Result := Host.Outcome State Fault Refusal

/-- How every operation ends: the block state it leaves and the output it produces, in one atomic step that changes
nothing else (00_scope.md R9, 20_memory.md R40). -/
def State.answer (s : State) (b : Block) (o : Output) : Result := .next { s with toBlock := b, out := o }

/-- `return v`: the read data of a read operation (00_scope.md R8). -/
def Output.ofRead (v : Byte) : Output := { rdata := some v, cass := none, frame := none }
/-- `emit CassOut(l)` (00_scope.md R8, 41_cassette.md R82). -/
def Output.ofCass (l : Level) : Output := { rdata := none, cass := some l, frame := none }
/-- The frame of a render pass (43_video.md R102). -/
def Output.ofFrame (f : Frame) : Output := { rdata := none, cass := none, frame := some f }

/-- `x[i]` (00_scope.md R8). -/
def Digits.get {α : Type} (x : Digits α) : Fin 6 → α
  | 0 => x.d0
  | 1 => x.d1
  | 2 => x.d2
  | 3 => x.d3
  | 4 => x.d4
  | 5 => x.d5

/-- `x[i] <- v` (00_scope.md R8). -/
def Digits.set {α : Type} (x : Digits α) (i : Fin 6) (v : α) : Digits α :=
  match i with
  | 0 => { x with d0 := v }
  | 1 => { x with d1 := v }
  | 2 => { x with d2 := v }
  | 3 => { x with d3 := v }
  | 4 => { x with d4 := v }
  | 5 => { x with d5 := v }

/-- One function applied to all six at once. -/
def Digits.map {α β : Type} (f : α → β) (x : Digits α) : Digits β :=
  ⟨f x.d0, f x.d1, f x.d2, f x.d3, f x.d4, f x.d5⟩

/-- The array whose element `i` is `f i`. -/
def Digits.ofFn {α : Type} (f : Fin 6 → α) : Digits α := ⟨f 0, f 1, f 2, f 3, f 4, f 5⟩

/-- The array of six equal elements. -/
def Digits.fill {α : Type} (v : α) : Digits α := ⟨v, v, v, v, v, v⟩

end Sys2Proof.Machine
end

