-- ==== Sys2Proof/Machine/Cassette.lean ====
section
/-! DEFINITION. The cassette tone decoder: STICK and PBREAD (41_cassette.md R80, R81). The encoder is the second half of
PBWRITE (R82), in Mux.lean. -/

namespace Sys2Proof.Machine

/-- STICK: count a positive sample; on a non-positive one classify the run, if any, and clear `RUN`
(41_cassette.md R80). -/
def execStick (pos : Bool) (s : State) : Result :=
  s.answer { s.toBlock with run := nextRun pos s.run, cbit := nextCbit pos s.run s.cbit } Output.nothing

/-- PBREAD: 0xFF in write mode, else 0x7F with bit 7 the complement of `CBIT`; no side effect (41_cassette.md R81). -/
def execPbread (s : State) : Result := s.answer s.toBlock (Output.ofRead (portBRead s.pb s.cbit))

end Sys2Proof.Machine
end

