-- ==== Sys2Proof/Machine/Control.lean ====
section
/-! DEFINITION. NOP, the reserved codes (30_encoding.md R54) and the machine reset (70_reset_and_hazards.md R140). -/

namespace Sys2Proof.Machine

/-- "reads nothing, writes nothing and produces no output" (30_encoding.md R54). -/
def State.idle (s : State) : Result := s.answer s.toBlock Output.nothing

/-- NOP (30_encoding.md R54). -/
def execNop (s : State) : Result := s.idle
/-- Reserved code 0xC, "decode[s] as NOP" (30_encoding.md R54). -/
def execNopReservedC (s : State) : Result := s.idle
/-- Reserved code 0xD (30_encoding.md R54). -/
def execNopReservedD (s : State) : Result := s.idle
/-- Reserved code 0xE (30_encoding.md R54). -/
def execNopReservedE (s : State) : Result := s.idle
/-- Reserved code 0xF (30_encoding.md R54). -/
def execNopReservedF (s : State) : Result := s.idle

/-- RESET, the machine reset: `PB` and every `CNT[i]`, "nothing else is written", no `CassOut`
(70_reset_and_hazards.md R140, 10_state.md R27; log 13). -/
def execReset (s : State) : Result :=
  s.answer { s.toBlock with pb := 0, cnt := Digits.fill 0 } Output.nothing

end Sys2Proof.Machine
end

