-- ==== Sys2Proof/Machine/Lines.lean ====
section
/-! DEFINITION. The reset/interrupt line control: POLL (44_lines.md R110 to R112). -/

namespace Sys2Proof.Machine

/-- One line after a poll: it takes the input's value when the two differ, an edge (44_lines.md R110). -/
def followEdge (input line : Bool) : Bool := if input ≠ line then input else line

/-- POLL: the two lines follow their inputs; the run-mode input is accepted and ignored (44_lines.md R110, R111;
log 13). -/
def execPoll (rs st _md : Bool) (s : State) : Result :=
  s.answer { s.toBlock with rstl := followEdge rs s.rstl, irql := followEdge st s.irql } Output.nothing

end Sys2Proof.Machine
end

