-- ==== Sys2Proof/Machine/Mux.lean ====
section
/-! DEFINITION. The keyboard/display multiplexer: DPREAD, DPWRITE, PBWRITE (40_mux.md R70 to R73). -/

namespace Sys2Proof.Machine

/-- DPREAD: the row mask that `SEL` selects, else 0xFF; no side effect (40_mux.md R70). -/
def execDpread (r0 r1 r2 : RowMask) (s : State) : Result :=
  s.answer s.toBlock (Output.ofRead (rowRead r0 r1 r2 (target (selField s.pb))))

/-- The effect of a data-port write on the digit arrays (40_mux.md R71). -/
def Block.displayWrite (b : Block) (t : Target) (v : Byte) : Block :=
  match t with
  | .digit d => if enField v then { b with latch := b.latch.set d (patField v), cnt := b.cnt.set d PERSIST_INIT } else b
  | .row _ => b
  | .nothing => b

/-- DPWRITE: a digit write when a digit is selected and bit 7 is set, else nothing (40_mux.md R71). -/
def execDpwrite (v : Byte) (s : State) : Result :=
  s.answer (s.toBlock.displayWrite (target (selField s.pb)) v) Output.nothing

/-- PBWRITE: all eight bits to `PB`; with bit 5 of the written byte set, also the level of its bit 7 to the sink and to
`CLVL` (40_mux.md R72, 41_cassette.md R82). -/
def execPbwrite (v : Byte) (s : State) : Result :=
  if modeField v then
    s.answer { s.toBlock with pb := v, clvl := lvlField v } (Output.ofCass (Level.ofBit (lvlField v)))
  else
    s.answer { s.toBlock with pb := v } Output.nothing

end Sys2Proof.Machine
end

