-- ==== Sys2Proof/Machine/Persistence.lean ====
section
/-! DEFINITION. The display persistence timer: PTICK and the digit outputs (42_persistence.md R90, R91). -/

namespace Sys2Proof.Machine

/-- One counter's tick: less one unless it is 0, "clamped at 0" (42_persistence.md R90, R93). -/
def decay (c : Count) : Count := if c ≠ 0 then c - 1 else 0

/-- PTICK: every nonzero counter less one, in one atomic step (42_persistence.md R90). -/
def execPtick (s : State) : Result := s.answer { s.toBlock with cnt := s.cnt.map decay } Output.nothing

/-- `SEG[i]`, what digit `i` shows: blank at counter 0, else its latch (42_persistence.md R91; log 10). -/
def Block.seg (b : Block) (i : Fin 6) : Pattern := if b.cnt.get i = 0 then 0 else b.latch.get i

end Sys2Proof.Machine
end

