-- ==== Sys2Proof/Machine/Video.lean ====
section
/-! DEFINITION. The video RAM access path: VREAD, VWRITE, RENDER (43_video.md R100 to R102). -/

namespace Sys2Proof.Machine

/-- VREAD: the byte at the address, no side effect (43_video.md R100). -/
def execVread (a : Addr) (s : State) : Result :=
  s.answer s.toBlock (Output.ofRead (s.vram.read (vramIndex s.cfg a)))

/-- VWRITE: the one byte at the address (43_video.md R101). -/
def execVwrite (a : Addr) (v : Byte) (s : State) : Result :=
  s.answer { s.toBlock with vram := s.vram.write (vramIndex s.cfg a) v } Output.nothing

/-- `r`, the buffer row shown at line `y` (43_video.md R102). -/
def shownRow (c : Config) (flip : Bool) (y : Nat) : Nat := if flip then c.rows - 1 - y else y

/-- `pix(x,y)` (43_video.md R102): bit `7 - (x & 7)` of byte `r * ROW_BYTES + (x >> 3)`. -/
def pixel (c : Config) (flip : Bool) (m : Memory) (x y : Nat) : Bool :=
  (m.read (shownRow c flip y * c.rowBytes + x / 8)).getLsbD (7 - x % 8)

/-- The frame: `8*ROW_BYTES` pixels wide and `ROWS` high (43_video.md R102; log 12). -/
def renderFrame (c : Config) (flip : Bool) (m : Memory) : Frame :=
  { lines := (List.range c.rows).map fun y => (List.range (8 * c.rowBytes)).map fun x => pixel c flip m x y }

/-- The pixel of a frame at column `x` of line `y`; `none` outside the frame. -/
def Frame.pix (f : Frame) (x y : Nat) : Option Bool := (f.lines[y]?).bind (fun row => row[x]?)

/-- RENDER: the frame of the buffer as it stands, no side effect (43_video.md R102, 20_memory.md R43). -/
def execRender (flip : Bool) (s : State) : Result :=
  s.answer s.toBlock (Output.ofFrame (renderFrame s.cfg flip s.vram))

end Sys2Proof.Machine
end

