-- ==== Sys2Proof/Machine/Dispatch.lean ====
section
/-! DEFINITION. One arm per operation: the meaning it calls (30_encoding.md R50). -/

namespace Sys2Proof.Machine

/-- The effect of one operation on the state. -/
def exec (i : Instr) (s : State) : Host.Outcome State Fault Refusal :=
  match i with
  | .nop => Sys2Proof.Machine.execNop s
  | .dpread r0 r1 r2 => Sys2Proof.Machine.execDpread r0 r1 r2 s
  | .dpwrite v => Sys2Proof.Machine.execDpwrite v s
  | .pbread => Sys2Proof.Machine.execPbread s
  | .pbwrite v => Sys2Proof.Machine.execPbwrite v s
  | .stick pos => Sys2Proof.Machine.execStick pos s
  | .ptick => Sys2Proof.Machine.execPtick s
  | .vread a => Sys2Proof.Machine.execVread a s
  | .vwrite a v => Sys2Proof.Machine.execVwrite a v s
  | .render flip => Sys2Proof.Machine.execRender flip s
  | .poll rs st md => Sys2Proof.Machine.execPoll rs st md s
  | .reset => Sys2Proof.Machine.execReset s
  | .nopReservedC => Sys2Proof.Machine.execNopReservedC s
  | .nopReservedD => Sys2Proof.Machine.execNopReservedD s
  | .nopReservedE => Sys2Proof.Machine.execNopReservedE s
  | .nopReservedF => Sys2Proof.Machine.execNopReservedF s

end Sys2Proof.Machine
end

