-- ==== Sys2Proof/Machine/Fetch.lean ====
section
/-! DEFINITION. Where the next operation comes from: the host's list of request words (00_scope.md R9, 30_encoding.md R50,
20_memory.md R40; log 1). -/

namespace Sys2Proof.Machine

/-- The next request of the host's list, with the state in which its operation runs; none when the list is empty. -/
def State.takeRequest (s : State) : Option (Instr × State) :=
  match s.pending with
  | [] => none
  | w :: rest => some (decode w, { s with pending := rest })

/-- The state with one more request word, to be performed next. -/
def State.putRequest (s : State) (w : Request) : State := { s with pending := w :: s.pending }

end Sys2Proof.Machine
end

