-- ==== Sys2Proof/Machine/Step.lean ====
section
/-! DEFINITION. One step of the machine: the host's next request, or the idle step when it has none (log 1). -/

namespace Sys2Proof.Machine

/-- One atomic step (00_scope.md R9, 20_memory.md R40): the operation of the next request word; with no request waiting,
NOP, which "stands for 'no event happened'" (30_encoding.md R54). -/
def step (s : State) : Host.Outcome State Fault Refusal :=
  match s.takeRequest with
  | some (i, s') => exec i s'
  | none => exec .nop s

/-- The state in which the next step performs the request word of the `nbits` low bits of `w`, the bits above them 0;
everything else as it was. It stands for the host issuing that request (log 1). -/
def State.withFetchWord (s : State) (nbits w : Nat) : State := s.putRequest (BitVec.ofNat 32 (w % 2 ^ nbits))

end Sys2Proof.Machine
end

