-- ==== Sys2Proof/Machine/Save.lean ====
section
/-! DEFINITION. The list of state the document hands to the out-of-scope save-state layer, and the whole a model must
carry (10_state.md R24). The layer itself is out of scope (00_scope.md R4; log 21). -/

namespace Sys2Proof.Machine

/-- The document's list: "PortBState, the six digit counters, the decoder's run-length counter and classified bit, plus
full VideoRAM contents" (10_state.md R24). -/
structure DocumentSave where
  pb : Byte
  cnt : Digits Count
  run : Nat
  cbit : Bool
  vram : Memory
  deriving DecidableEq, Repr

/-- The five items of the document's list (10_state.md R24). -/
def Block.documentSave (b : Block) : DocumentSave :=
  { pb := b.pb, cnt := b.cnt, run := b.run, cbit := b.cbit, vram := b.vram }

/-- A session resumed from "all nine items of rule R10" (10_state.md R24). -/
def State.resume (s : State) (b : Block) : State := { s with toBlock := b }

end Sys2Proof.Machine
end

