-- ==== Sys2Proof/Machine/Pseudo.lean ====
section
/-! DEFINITION. What each pseudo-operation expands to (30_encoding.md R62). -/

namespace Sys2Proof.Machine

/-- `r << 1`, the byte that selects row `r` (30_encoding.md R62, R56). -/
def rowByte (r : Fin 3) : Byte := BitVec.ofNat 8 (r.val <<< 1)
/-- `(d + 4) << 1`, the byte that selects digit `d` (30_encoding.md R62, R56). -/
def digitByte (d : Fin 6) : Byte := BitVec.ofNat 8 ((d.val + 4) <<< 1)
/-- `0x80 | p`, a qualifying display write of pattern `p` (30_encoding.md R62). -/
def showByte (p : Pattern) : Byte := 0x80#8 ||| p.setWidth 8
/-- `0x20 | (l << 7)`, the byte that emits `Level(l)` (30_encoding.md R62). -/
def toneByte (l : Bool) : Byte := 0x20#8 ||| ((BitVec.ofBool l).setWidth 8 <<< 7)

/-- The real operations a pseudo-operation stands for, in order (30_encoding.md R62). -/
def expandPseudo : Pseudo → List Instr
  | .op i => [i]
  | .selrow r => [.pbwrite (rowByte r)]
  | .seldig d => [.pbwrite (digitByte d)]
  | .showDigit d p => [.pbwrite (digitByte d), .dpwrite (showByte p)]
  | .tone l => [.pbwrite (toneByte l)]
  | .rep n line => (List.replicate n (expandPseudo line)).flatten

end Sys2Proof.Machine
end

