-- ==== Sys2Proof/Machine/Trace.lean ====
section
/-! DEFINITION. The trace syntax of 30_encoding.md R61 and the pseudo-operations' lines of R62: a line as data, its
assembly into an operation, its check against the rules, and reading it from characters (log 17). -/

namespace Sys2Proof.Machine

/-- `<result>` (30_encoding.md R61). -/
inductive TraceResult where
  | number (n : Nat)
  | cassOut (l : Level)
  deriving DecidableEq, Repr

/-- `<line>` (30_encoding.md R61), less its comment. -/
structure TraceLine where
  mnemonic : Mnemonic
  operands : List Nat
  result : Option TraceResult
  deriving DecidableEq, Repr

/-- The operands of an operation, in the order of R61's table. -/
def traceOperands : Instr → List Nat
  | .nop => []
  | .dpread r0 r1 r2 => [r0.toNat, r1.toNat, r2.toNat]
  | .dpwrite v => [v.toNat]
  | .pbread => []
  | .pbwrite v => [v.toNat]
  | .stick p => [p.toNat]
  | .ptick => []
  | .vread a => [a.toNat]
  | .vwrite a v => [a.toNat, v.toNat]
  | .render f => [f.toNat]
  | .poll rs st md => [rs.toNat, st.toNat, md.toNat]
  | .reset => []
  | .nopReservedC => []
  | .nopReservedD => []
  | .nopReservedE => []
  | .nopReservedF => []

/-- A number as a field of `n` bits, when it fits. -/
def fieldOfNat (n k : Nat) : Option (BitVec n) := if k < 2 ^ n then some (BitVec.ofNat n k) else none

/-- A number as one bit, 0 or 1. -/
def bitOfNat : Nat → Option Bool
  | 0 => some false
  | 1 => some true
  | _ => none

/-- The operation of a mnemonic and its operands (30_encoding.md R61); none when their number or range is wrong. -/
def assemble : Mnemonic → List Nat → Option Instr
  | .NOP, [] => some .nop
  | .DPREAD, [a, b, c] => do return .dpread (← fieldOfNat 7 a) (← fieldOfNat 7 b) (← fieldOfNat 7 c)
  | .DPWRITE, [v] => do return .dpwrite (← fieldOfNat 8 v)
  | .PBREAD, [] => some .pbread
  | .PBWRITE, [v] => do return .pbwrite (← fieldOfNat 8 v)
  | .STICK, [p] => do return .stick (← bitOfNat p)
  | .PTICK, [] => some .ptick
  | .VREAD, [a] => do return .vread (← fieldOfNat 16 a)
  | .VWRITE, [a, v] => do return .vwrite (← fieldOfNat 16 a) (← fieldOfNat 8 v)
  | .RENDER, [f] => do return .render (← bitOfNat f)
  | .POLL, [rs, st, md] => do return .poll (← bitOfNat rs) (← bitOfNat st) (← bitOfNat md)
  | .RESET, [] => some .reset
  | _, _ => none

/-- The result a trace writes for an output: the returned byte or the cassette event; "none in a trace" for a frame
(30_encoding.md R61). -/
def traceResult (o : Output) : Option TraceResult :=
  match o.rdata, o.cass with
  | some v, _ => some (.number v.toNat)
  | none, some l => some (.cassOut l)
  | none, none => none

/-- The line a trace writes for an operation and its output. -/
def traceLine (i : Instr) (o : Output) : TraceLine :=
  { mnemonic := i.mnemonic, operands := traceOperands i, result := traceResult o }

/-- The state after a trace line whose result is "what the rules say the operation returns" (30_encoding.md R61); none
when the line does not assemble or claims another result. -/
def checkLine (l : TraceLine) (s : State) : Option State :=
  match assemble l.mnemonic l.operands with
  | none => none
  | some i =>
    match exec i s with
    | .next t => if traceResult t.out = l.result then some t else none
    | .fault _ => none
    | .refused _ => none

/-- The value of a hexadecimal digit. -/
def digitValue (c : Char) : Option Nat :=
  if '0' ≤ c ∧ c ≤ '9' then some (c.toNat - '0'.toNat)
  else if 'a' ≤ c ∧ c ≤ 'f' then some (c.toNat - 'a'.toNat + 10)
  else if 'A' ≤ c ∧ c ≤ 'F' then some (c.toNat - 'A'.toNat + 10)
  else none

/-- Digits in a base, most significant first, after the value read so far. -/
def readDigits (base : Nat) : Nat → List Char → Option Nat
  | acc, [] => some acc
  | acc, c :: cs =>
    match digitValue c with
    | some d => if d < base then readDigits base (acc * base + d) cs else none
    | none => none

/-- `<number>`: "decimal, or hexadecimal with 0x" (30_encoding.md R61). -/
def readNumber : List Char → Option Nat
  | [] => none
  | '0' :: 'x' :: c :: cs => readDigits 16 0 (c :: cs)
  | c :: cs => readDigits 10 0 (c :: cs)

/-- The characters less the blanks at both ends. -/
def trimBlanks (cs : List Char) : List Char :=
  ((cs.dropWhile (· == ' ')).reverse.dropWhile (· == ' ')).reverse

/-- The pieces between the commas. -/
def splitCommas : List Char → List (List Char)
  | [] => [[]]
  | c :: cs =>
    if c = ',' then [] :: splitCommas cs
    else
      match splitCommas cs with
      | [] => [[c]]
      | w :: ws => (c :: w) :: ws

/-- The characters before `->` and those after it, when it stands. -/
def splitArrow : List Char → List Char × Option (List Char)
  | [] => ([], none)
  | [c] => ([c], none)
  | c :: d :: cs =>
    if c = '-' ∧ d = '>' then ([], some cs)
    else (c :: (splitArrow (d :: cs)).1, (splitArrow (d :: cs)).2)

/-- The mnemonics as they are written. -/
def mnemonicNames : List (List Char × Mnemonic) :=
  [ (['N', 'O', 'P'], .NOP), (['D', 'P', 'R', 'E', 'A', 'D'], .DPREAD), (['D', 'P', 'W', 'R', 'I', 'T', 'E'], .DPWRITE),
    (['P', 'B', 'R', 'E', 'A', 'D'], .PBREAD), (['P', 'B', 'W', 'R', 'I', 'T', 'E'], .PBWRITE),
    (['S', 'T', 'I', 'C', 'K'], .STICK) ] ++
  [ (['P', 'T', 'I', 'C', 'K'], .PTICK), (['V', 'R', 'E', 'A', 'D'], .VREAD), (['V', 'W', 'R', 'I', 'T', 'E'], .VWRITE),
    (['R', 'E', 'N', 'D', 'E', 'R'], .RENDER), (['P', 'O', 'L', 'L'], .POLL), (['R', 'E', 'S', 'E', 'T'], .RESET) ]

/-- `<operand> {"," <operand>}`, or none at all. -/
def readOperands (cs : List Char) : Option (List Nat) :=
  match trimBlanks cs with
  | [] => some []
  | c :: rest => (splitCommas (c :: rest)).mapM (fun w => readNumber (trimBlanks w))

/-- `<result>` (30_encoding.md R61). -/
def readResult (cs : List Char) : Option TraceResult :=
  let word := trimBlanks cs
  if word = ['C', 'a', 's', 's', 'O', 'u', 't', '(', '+', '1', '.', '0', ')'] then some (.cassOut .plus)
  else if word = ['C', 'a', 's', 's', 'O', 'u', 't', '(', '-', '1', '.', '0', ')'] then some (.cassOut .minus)
  else (readNumber word).map .number

/-- The word a line begins with, and the rest. -/
def splitWord (cs : List Char) : List Char × List Char :=
  let body := cs.dropWhile (· == ' ')
  (body.takeWhile (· != ' '), body.dropWhile (· != ' '))

/-- A `<line>` from its characters, its comment dropped (30_encoding.md R61). -/
def readLine (cs : List Char) : Option TraceLine := do
  let (left, right) := splitArrow (cs.takeWhile (· != ';'))
  let (word, rest) := splitWord left
  let m ← mnemonicNames.lookup word
  let ops ← readOperands rest
  match right with
  | none => return { mnemonic := m, operands := ops, result := none }
  | some r => return { mnemonic := m, operands := ops, result := some (← readResult r) }

/-- `r` or `d` as a number below `n`. -/
def indexOfNat (n k : Nat) : Option (Fin n) := if h : k < n then some ⟨k, h⟩ else none

/-- The number and the line of `REPEAT n: <line>` (30_encoding.md R62). -/
def splitColon (cs : List Char) : List Char × List Char :=
  (cs.takeWhile (· != ':'), (cs.dropWhile (· != ':')).drop 1)

/-- A line that may be a pseudo-operation (30_encoding.md R62), `depth` nested `REPEAT`s at most. DESIGN CHOICE (log 17): R62
does not say what a `-> <result>` on such a line means. Here a result on a real operation's line, under `REPEAT` too, is
read and dropped, and a result on `SELROW`, `SELDIG`, `SHOW` or `TONE` makes the line unreadable; a result is checked by
`readLine` and `checkLine` alone. -/
def readPseudo : Nat → List Char → Option Pseudo
  | depth, cs =>
    let (word, rest) := splitWord (cs.takeWhile (· != ';'))
    if word = ['R', 'E', 'P', 'E', 'A', 'T'] then
      match depth with
      | 0 => none
      | k + 1 => do return .rep (← readNumber (trimBlanks (splitColon rest).1)) (← readPseudo k (splitColon rest).2)
    else if word = ['S', 'E', 'L', 'R', 'O', 'W'] then
      do match ← readOperands rest with
        | [r] => return .selrow (← indexOfNat 3 r)
        | _ => none
    else if word = ['S', 'E', 'L', 'D', 'I', 'G'] then
      do match ← readOperands rest with
        | [d] => return .seldig (← indexOfNat 6 d)
        | _ => none
    else if word = ['S', 'H', 'O', 'W'] then
      do match ← readOperands rest with
        | [d, p] => return .showDigit (← indexOfNat 6 d) (← fieldOfNat 7 p)
        | _ => none
    else if word = ['T', 'O', 'N', 'E'] then
      do match ← readOperands rest with
        | [l] => return .tone (← bitOfNat l)
        | _ => none
    else do
      let l ← readLine cs
      return .op (← assemble l.mnemonic l.operands)

end Sys2Proof.Machine
end

