-- ==== Sys2Proof/Machine/Pins.lean ====
section
/-! DEFINITION. The signal list of 20_memory.md R45: "each strobe is one operation", "at most one strobe is active in any
step", "It adds no behaviour". -/

namespace Sys2Proof.Machine

/-- The input signals (20_memory.md R45). `va` is drawn at its widest, 16 bits; the block sees `VA_W` of them. -/
structure PinsIn where
  dpRd : Bool
  dpWr : Bool
  pbRd : Bool
  pbWr : Bool
  vRd : Bool
  vWr : Bool
  wdata : Byte
  va : Addr
  row0 : RowMask
  row1 : RowMask
  row2 : RowMask
  rsIn : Bool
  stIn : Bool
  mdIn : Bool
  poll : Bool
  sampTick : Bool
  sampPos : Bool
  persTick : Bool
  frame : Bool
  flip : Bool
  mreset : Bool
  deriving DecidableEq, Repr

/-- The output signals (20_memory.md R45); `rdata` and `pix` are absent in a step in which the list gives them no
meaning. -/
structure PinsOut where
  rdata : Option Byte
  seg : Digits Pattern
  cassStb : Bool
  cassLvl : Bool
  rstLine : Bool
  irqLine : Bool
  pix : Option Frame
  deriving DecidableEq, Repr

/-- One operation, when its strobe is active. -/
def strobed (strobe : Bool) (i : Instr) : List Instr := if strobe then [i] else []

/-- The operations whose strobes are active, each with the data and side-band inputs of this step. -/
def PinsIn.operations (p : PinsIn) : List Instr :=
  strobed p.dpRd (.dpread p.row0 p.row1 p.row2) ++ strobed p.dpWr (.dpwrite p.wdata) ++
  strobed p.pbRd .pbread ++ strobed p.pbWr (.pbwrite p.wdata) ++
  strobed p.vRd (.vread p.va) ++ strobed p.vWr (.vwrite p.va p.wdata) ++
  strobed p.poll (.poll p.rsIn p.stIn p.mdIn) ++ strobed p.sampTick (.stick p.sampPos) ++
  strobed p.persTick .ptick ++ strobed p.frame (.render p.flip) ++ strobed p.mreset .reset

/-- The eleven strobes, in the order of `operations`. -/
def PinsIn.strobes (p : PinsIn) : List Bool :=
  [p.dpRd, p.dpWr, p.pbRd, p.pbWr, p.vRd, p.vWr, p.poll, p.sampTick, p.persTick, p.frame, p.mreset]

/-- One step at the signals: the strobed operation; NOP with no strobe; two strobes at once are outside the spec
(70_reset_and_hazards.md R158; log 15). -/
def stepPins (p : PinsIn) (s : State) : Result :=
  match p.operations with
  | [] => exec .nop s
  | [i] => exec i s
  | _ :: _ :: _ => .refused .overlappingStrobes

/-- The output signals after a step (20_memory.md R45): `seg`, `cass_lvl` and the two lines are functions of the block's
state, the rest of the step's output. -/
def State.pinsOut (s : State) : PinsOut :=
  { rdata := s.out.rdata
    seg := Digits.ofFn s.toBlock.seg
    cassStb := s.out.cass.isSome
    cassLvl := s.clvl
    rstLine := s.rstl
    irqLine := s.irql
    pix := s.out.frame }

end Sys2Proof.Machine
end

