-- ==== Sys2Proof/WellFormed.lean ====
section
/-! DEFINITION. Which request is well formed (30_encoding.md R51). Every other field has exactly the width its format
gives it, so a term cannot hold an operand its encoding does not admit. -/

namespace Sys2Proof

/-- "a request word is well formed only if `ADDR < 2^VA_W`, so that no address bit is dropped" (30_encoding.md R51);
every other operation is well formed. -/
def Instr.wf (c : Config) : Instr → Bool
  | .nop => true
  | .dpread _ _ _ => true
  | .dpwrite _ => true
  | .pbread => true
  | .pbwrite _ => true
  | .stick _ => true
  | .ptick => true
  | .vread a => a.toNat < c.vramSize
  | .vwrite a _ => a.toNat < c.vramSize
  | .render _ => true
  | .poll _ _ _ => true
  | .reset => true
  | .nopReservedC => true
  | .nopReservedD => true
  | .nopReservedE => true
  | .nopReservedF => true

end Sys2Proof
end

