-- ==== Sys2Proof/Safety.lean ====
section
/-! DEFINITION. The terms of claims about the whole machine: the invariant, runs of operations, when two operations
commute, what the outside can observe, and the interleavings the spec admits. -/

namespace Sys2Proof.Machine

/-- The invariant every step keeps: parameters as 00_scope.md R5 asks, and VideoRAM in canonical form with every listed
address below `VRAM_SIZE` (10_state.md R16). The ranges of R25 are those of the fields' types. -/
abbrev State.Inv (s : State) : Prop :=
  s.cfg.wf ∧ Memory.wf s.vram ∧ Memory.within s.vram s.cfg.vramSize

/-- The operations of a list performed in order, each "complete before the next begins" (20_memory.md R40). -/
def runOps : List Instr → State → Result
  | [], s => .next s
  | i :: is, s =>
    match exec i s with
    | .next t => runOps is t
    | .fault r => .fault r
    | .refused r => .refused r

/-- `k` steps of the machine, stopping at the first that answers no next state. -/
def runSteps : Nat → State → Result
  | 0, s => .next s
  | k + 1, s =>
    match step s with
    | .next t => runSteps k t
    | .fault r => .fault r
    | .refused r => .refused r

/-- The outputs of a list of operations, one for each. -/
def outputsOf : List Instr → State → List Output
  | [], _ => []
  | i :: is, s =>
    match exec i s with
    | .next t => t.out :: outputsOf is t
    | .fault _ => []
    | .refused _ => []

/-- "The sequence of `CassOut` events" of a list of operations (41_cassette.md R82). -/
def cassEvents (is : List Instr) (s : State) : List Level := (outputsOf is s).filterMap Output.cass

/-- The event an operation emits: "One event per qualifying PBWRITE; no event from any other operation"
(41_cassette.md R82). -/
def emittedLevel : Instr → Option Level
  | .pbwrite v => if v.getLsbD 5 = true then some (if v.getLsbD 7 = true then .minus else .plus) else none
  | .nop => none
  | .dpread _ _ _ => none
  | .dpwrite _ => none
  | .pbread => none
  | .stick _ => none
  | .ptick => none
  | .vread _ => none
  | .vwrite _ _ => none
  | .render _ => none
  | .poll _ _ _ => none
  | .reset => none
  | .nopReservedC => none
  | .nopReservedD => none
  | .nopReservedE => none
  | .nopReservedF => none

/-- A qualifying display write to digit `d`: DPWRITE of a byte with bit 7 set while `SEL` selects `d` (40_mux.md R71). -/
def Qualifies (d : Fin 6) (i : Instr) (s : State) : Prop :=
  ∃ v, i = .dpwrite v ∧ v.getLsbD 7 = true ∧ selField s.pb = d.val + 4

/-- Along the list no operation is a qualifying display write to digit `d` in the state it finds. -/
def NoWriteTo (d : Fin 6) : List Instr → State → Prop
  | [], _ => True
  | i :: is, s => ¬ Qualifies d i s ∧ ∀ t, exec i s = .next t → NoWriteTo d is t

/-- Two operations "commute (give the same state and outputs in either order)" from a state (20_memory.md R41): both
orders run, leave the same block, and each operation has the same output in both. -/
def CommuteAt (i j : Instr) (s : State) : Prop :=
  ∃ a ab b ba, exec i s = .next a ∧ exec j a = .next ab ∧ exec j s = .next b ∧ exec i b = .next ba ∧
    ab.toBlock = ba.toBlock ∧ a.out = ba.out ∧ ab.out = b.out

/-- One event of the block, whichever source it comes from (20_memory.md R41: any of them, in any order). -/
def Event (s t : State) : Prop := ∃ i, exec i s = .next t

/-- The states the block can reach from `s` under every interleaving of its event sources (20_memory.md R41, U14). -/
inductive Reaches (s : State) : State → Prop where
  | here : Reaches s s
  | event {t u : State} : Reaches s t → Event t u → Reaches s u

/-- An unbounded schedule in which "each of STICK and PTICK occurs without bound" (20_memory.md R41), "the only timing
fact a model may assume". -/
def FairSchedule (f : Nat → Instr) : Prop :=
  ∀ n, (∃ m p, n ≤ m ∧ f m = .stick p) ∧ ∃ m, n ≤ m ∧ f m = .ptick

/-- The first `n` operations of a schedule. -/
def firstOps (f : Nat → Instr) (n : Nat) : List Instr := (List.range n).map f

/-- What can be seen of a state from outside: the output signals (20_memory.md R45). -/
def SameSignals (s t : State) : Prop := s.pinsOut = t.pinsOut

/-- The operations of the video RAM access path (43_video.md). -/
def isVideo : Instr → Bool
  | .vread _ => true
  | .vwrite _ _ => true
  | .render _ => true
  | .nop => false
  | .dpread _ _ _ => false
  | .dpwrite _ => false
  | .pbread => false
  | .pbwrite _ => false
  | .stick _ => false
  | .ptick => false
  | .poll _ _ _ => false
  | .reset => false
  | .nopReservedC => false
  | .nopReservedD => false
  | .nopReservedE => false
  | .nopReservedF => false

/-- Two states told apart by nothing but a `RUN` of 8 or more (10_state.md R14, last sentence). -/
def SameButLongRun (s t : State) : Prop :=
  s = { t with run := s.run } ∧ (s.run = t.run ∨ (8 ≤ s.run ∧ 8 ≤ t.run))

/-- Two states told apart by nothing but latches behind a zero counter (10_state.md R23). -/
def SameButDarkLatch (s t : State) : Prop :=
  s = { t with latch := s.latch } ∧ ∀ i, s.cnt.get i ≠ 0 → s.latch.get i = t.latch.get i

/-- The sampling rates, in samples per second, that separate the two tones named in passing, ~3700 Hz and ~2400 Hz:
`f / 7400 < 8 <= f / 4800`. "Informative arithmetic, not a rule and used by no rule" (70_reset_and_hazards.md R160). -/
def separatesTones (f : Nat) : Bool := f < 8 * 7400 && 8 * 4800 ≤ f

end Sys2Proof.Machine
end

