-- ==== Sys2Proof/Certificates/Slice0/Obligations.lean ====
section
/-! DEFINITION. The statements about the block, each from the rules its docstring names. Select indices are written out
as `PB / 2 % 16` (30_encoding.md R55), bits as `getLsbD`. -/

open Sys2Proof Sys2Proof.Machine

/-! ## Steps and encodings -/

/-- A step performs the operation of the host's next request word, which is then no longer waiting; with none waiting it
does nothing; a request put with `withFetchWord` is the one performed next. The list of requests is the model's form of
"every operation is started from outside" (00_scope.md R9; log 1). -/
def Obligations.StepPerformsTheNextRequest : Prop :=
  (∀ s w rest, s.pending = w :: rest → step s = exec (decode w) { s with pending := rest }) ∧
  (∀ s, s.pending = [] → step s = .next { s with out := Output.nothing }) ∧
  (∀ s (w : Request), step (s.withFetchWord 32 w.toNat) = exec (decode w) s)

/-- As many steps as requests wait perform their operations one after the other in the host's order and leave none
waiting (20_memory.md R40; log 1). -/
def Obligations.RunPerformsRequestsInOrder : Prop :=
  ∀ s : State, runSteps s.pending.length s = runOps (s.pending.map decode) { s with pending := [] }

/-- Words of 95_test_vectors.md 2.12, written out from the formats, decode as it says. -/
def Obligations.SampleWordsDecode : Prop :=
  decode 0x0FFFFFFF = .nop ∧ decode 0x1F7F2A55 = .dpread 0x55 0x2A 0x7F ∧ decode 0x20000187 = .dpwrite 0x87 ∧
  decode 0x3ABCDEF0 = .pbread ∧ decode 0x40FFFF20 = .pbwrite 0x20 ∧ decode 0x5000FFFE = .stick false ∧
  decode 0x50000003 = .stick true ∧ decode 0x6FFFFFFF = .ptick ∧ decode 0x700123FF = .vread 0x0123 ∧
  decode 0x800123A5 = .vwrite 0x0123 0xA5 ∧ decode 0x900000FE = .render false ∧
  decode 0xA00000FD = .poll true false true ∧ decode 0xB1234567 = .reset ∧
  (decode 0xC0123456).mnemonic = .NOP

/-- Decoding the request word of any operation gives that operation, with every operand at every value (30_encoding.md
R51, R52; the encoding is the spec's own, D2). -/
def Obligations.DecodeOfEncodeIsTheOperation : Prop := ∀ i : Instr, decode (encode i) = i

/-- Encoding what a word decodes to gives the word with its unused bits cleared: every used bit is read and written in
its place (30_encoding.md R51, R53). -/
def Obligations.EncodeOfDecodeClearsUnusedBits : Prop := ∀ w : Request, encode (decode w) = w &&& usedBits w

/-- "two words that differ only in unused bits are the same operation with the same inputs", and an assembler writes
those bits as 0 (30_encoding.md R53; the spec's choice, D19). -/
def Obligations.UnusedBitsAreIgnored : Prop :=
  (∀ w w' : Request, (w ^^^ w') &&& usedBits w = 0 → decode w = decode w') ∧
  (∀ i : Instr, encode i &&& ~~~usedBits (encode i) = 0)

/-- Every word matches exactly one row of the table of operation codes, and that row names what it decodes to
(30_encoding.md R52, R64). -/
def Obligations.OneTableRowPerWord : Prop :=
  ∀ w : Request, ∃ row ∈ opTable, w &&& row.mask = row.matchBits ∧ row.mnemonic = (decode w).mnemonic ∧
    ∀ other ∈ opTable, w &&& other.mask = other.matchBits → other = row

/-- Which bits of a word are which operand, for every word of every operation code (30_encoding.md R51, R52; the encoding
is the spec's own, D2). -/
def Obligations.WordFieldsAreTheOperands : Prop :=
  ∀ w : Request, decode w = match w.toNat / 2 ^ 28 with
    | 0x0 => .nop
    | 0x1 => .dpread (w.extractLsb' 0 7) (w.extractLsb' 8 7) (w.extractLsb' 16 7)
    | 0x2 => .dpwrite (w.extractLsb' 0 8)
    | 0x3 => .pbread
    | 0x4 => .pbwrite (w.extractLsb' 0 8)
    | 0x5 => .stick (w.getLsbD 0)
    | 0x6 => .ptick
    | 0x7 => .vread (w.extractLsb' 8 16)
    | 0x8 => .vwrite (w.extractLsb' 8 16) (w.extractLsb' 0 8)
    | 0x9 => .render (w.getLsbD 0)
    | 0xA => .poll (w.getLsbD 0) (w.getLsbD 1) (w.getLsbD 2)
    | 0xB => .reset
    | 0xC => .nopReservedC
    | 0xD => .nopReservedD
    | 0xE => .nopReservedE
    | _ => .nopReservedF

/-! ## The operations -/

/-- NOP and the reserved codes leave everything as it was and produce no output; the reserved codes decode as NOP; no
word is illegal (30_encoding.md R54; the spec's choice, D19; log 6). -/
def Obligations.NopAndReservedCodesDoNothing : Prop :=
  (∀ i ∈ [Instr.nop, .nopReservedC, .nopReservedD, .nopReservedE, .nopReservedF], ∀ s : State,
    exec i s = .next { s with out := Output.nothing }) ∧
  (∀ w : Request, (w.toNat / 2 ^ 28 = 0 ∨ 0xC ≤ w.toNat / 2 ^ 28) → (decode w).mnemonic = .NOP ∧
    ∀ s : State, exec (decode w) s = .next { s with out := Output.nothing }) ∧
  (∀ (w : Request) (s : State), ∃ t, exec (decode w) s = .next t)

/-- DPREAD returns the selected row mask with bit 7 clear, 0xFF when no row is selected, and changes nothing
(40_mux.md R70). That bit 7 is 0 for every mask is the spec's own reading (30_encoding.md R58, D5; log 9). -/
def Obligations.DpreadReturnsSelectedRow : Prop :=
  ∀ (r0 r1 r2 : RowMask) (s : State), exec (.dpread r0 r1 r2) s = .next { s with out :=
    { rdata := some (if s.pb.toNat / 2 % 16 = 0 then r0.setWidth 8
        else if s.pb.toNat / 2 % 16 = 1 then r1.setWidth 8
        else if s.pb.toNat / 2 % 16 = 2 then r2.setWidth 8
        else 0xFF)
      cass := none, frame := none } }

/-- DPWRITE sets the pattern and the counter of the selected digit, and of no other, when bit 7 of the byte is set;
otherwise it changes nothing (30_encoding.md R57, whole; 40_mux.md R71). -/
def Obligations.DpwriteSetsSelectedDigit : Prop :=
  ∀ (v : Byte) (s : State), ∃ t, exec (.dpwrite v) s = .next t ∧
    t = { s with cnt := t.cnt, latch := t.latch, out := Output.nothing } ∧
    ∀ d : Fin 6, if v.getLsbD 7 = true ∧ s.pb.toNat / 2 % 16 = d.val + 4
      then t.cnt.get d = 15 ∧ t.latch.get d = v.extractLsb' 0 7
      else t.cnt.get d = s.cnt.get d ∧ t.latch.get d = s.latch.get d

/-- PBREAD returns 0xFF in write mode, else 0x7F with bit 7 the complement of `CBIT`, and changes nothing
(30_encoding.md R59, whole; 41_cassette.md R81). -/
def Obligations.PbreadReturnsComplementOfBit : Prop :=
  ∀ s : State, exec .pbread s = .next { s with out :=
    { rdata := some (if s.pb.getLsbD 5 = true then 0xFF else if s.cbit = true then 0x7F else 0xFF)
      cass := none, frame := none } }

/-- PBWRITE stores all eight bits in `PB`; when bit 5 of the written byte is set it also emits the level of its bit 7 and
`CLVL` takes that bit; nothing else changes (40_mux.md R72). Event plus latch is the spec's form of the output (D12;
log 20). -/
def Obligations.PbwriteStoresAndEmits : Prop :=
  (∀ (v : Byte) (s : State), exec (.pbwrite v) s = .next { s with
    pb := v
    clvl := if v.getLsbD 5 = true then v.getLsbD 7 else s.clvl
    out := { rdata := none
             cass := if v.getLsbD 5 = true then some (if v.getLsbD 7 = true then .minus else .plus) else none
             frame := none } }) ∧
  Level.amplitude .plus = 1 ∧ Level.amplitude .minus = -1

/-- STICK counts a positive sample; a non-positive one classifies the run it ends, 1 below 8 samples and 0 from 8 on, and
clears `RUN`; with no run it changes nothing; nothing else ever changes (41_cassette.md R80, R83). That `RUN` has no
upper bound is the spec's choice (D10; log 11). -/
def Obligations.StickCountsAndClassifies : Prop :=
  (∀ s : State, exec (.stick true) s = .next { s with run := s.run + 1, out := Output.nothing }) ∧
  (∀ s : State, exec (.stick false) s = .next { s with
    run := 0
    cbit := if s.run = 0 then s.cbit else if s.run < 8 then true else false
    out := Output.nothing })

/-- PTICK takes one from every counter that is not 0, leaves the others at 0, and changes nothing else
(42_persistence.md R90, R93). -/
def Obligations.PtickDecaysEveryCounter : Prop :=
  ∀ s : State, ∃ t, exec .ptick s = .next t ∧ t = { s with cnt := t.cnt, out := Output.nothing } ∧
    ∀ d : Fin 6, (t.cnt.get d).toNat = (s.cnt.get d).toNat - 1

/-- VREAD returns the byte at the address the block sees, `ADDR[VA_W-1:0]`, and changes nothing (43_video.md R100). The
address form is the spec's own (30_encoding.md R51, D2, D13; log 7). -/
def Obligations.VreadReturnsStoredByte : Prop :=
  ∀ (a : Addr) (s : State), exec (.vread a) s = .next { s with out :=
    { rdata := some (s.vram.read (a.toNat % 2 ^ s.cfg.vaW)), cass := none, frame := none } }

/-- VWRITE stores the byte at the address the block sees and leaves every other byte and all other state as it was
(43_video.md R101). The address form is the spec's own (30_encoding.md R51, D2, D13; log 7). -/
def Obligations.VwriteStoresOneByte : Prop :=
  ∀ (a : Addr) (v : Byte) (s : State), ∃ t, exec (.vwrite a v) s = .next t ∧
    t = { s with vram := t.vram, out := Output.nothing } ∧
    ∀ b : Nat, t.vram.read b = if b = a.toNat % 2 ^ s.cfg.vaW then v else s.vram.read b

/-- RENDER produces the frame of the buffer as it stands: at `(x, y)` bit `7 - (x & 7)` of byte
`r * ROW_BYTES + (x >> 3)`, with `r` the line or, flipped, `ROWS - 1 - y`; no pixel outside the frame; it changes nothing
(43_video.md R102). All but "8 pixels per byte, adjacent", most significant bit first and the vertical flip is the spec's
choice of geometry (D14; log 12). -/
def Obligations.RenderMapsBitsToPixels : Prop :=
  ∀ (flip : Bool) (s : State), ∃ f, exec (.render flip) s = .next { s with out :=
      { rdata := none, cass := none, frame := some f } } ∧
    ∀ x y : Nat, f.pix x y = if x < 8 * s.cfg.rowBytes ∧ y < s.cfg.rows
      then some ((s.vram.read ((if flip = true then s.cfg.rows - 1 - y else y) * s.cfg.rowBytes + x / 8)).getLsbD
        (7 - x % 8))
      else none

/-- After a POLL the reset line is the reset input and the interrupt line the interrupt input; the run-mode input changes
nothing, nor does anything else change (44_lines.md R110). Polarity and following the edges are the spec's choice (D15;
log 13). -/
def Obligations.PollMakesLinesFollowInputs : Prop :=
  ∀ (rs st md : Bool) (s : State),
    exec (.poll rs st md) s = .next { s with rstl := rs, irql := st, out := Output.nothing }

/-- The run-mode input "is therefore accepted by POLL and ignored. It changes no state and no output of the block"
(44_lines.md R111). That it has no effect is the spec's own choice (D15; log 13). -/
def Obligations.RunModeInputIsIgnored : Prop :=
  ∀ (rs st : Bool) (s : State), ∃ t, ∀ md : Bool, exec (.poll rs st md) s = .next t

/-- RESET clears `PB` and every counter, keeps every other item, and emits nothing (70_reset_and_hazards.md R140,
10_state.md R27). That it keeps the others is the spec's choice (D16; log 13). -/
def Obligations.ResetClearsPortAndCounters : Prop :=
  ∀ s : State, exec .reset s = .next { s with pb := 0x00, cnt := ⟨0, 0, 0, 0, 0, 0⟩, out := Output.nothing }

/-! ## Power-on and the whole machine -/

/-- Power-on is an arbitrary value of every item followed by a RESET: `PB` and every counter are zero and every other
item is whatever was drawn (10_state.md R26, 70_reset_and_hazards.md R141). No clause rests on the draw of
`State.reset`. That every other item is a draw is the spec's choice (D17). -/
def Obligations.PowerOnIsDrawThenReset : Prop :=
  (∀ (c : Config) (draw : Block),
    exec .reset { toBlock := draw, cfg := c, out := Output.nothing, pending := [] } = .next (State.powerOn c draw)) ∧
  (∀ (c : Config) (b : Block), b.pb = 0x00 → (∀ d, b.cnt.get d = 0) → ∃ draw, (State.powerOn c draw).toBlock = b) ∧
  (∃ c draw, State.reset = State.powerOn c draw)

/-- Every operation, and every step, answers a next state: nothing fails, traps, faults, blocks or is refused
(60_exceptions.md R120). -/
def Obligations.NoOperationCanFail : Prop :=
  (∀ (i : Instr) (s : State), ∃ t, exec i s = .next t) ∧ (∀ s : State, ∃ t, step s = .next t)

/-- The defined no-ops: each changes no state and produces no output, except that a read returns 0xFF and a PBWRITE with
bit 5 clear stores `PB` (60_exceptions.md R121). -/
def Obligations.DefinedNoOpsChangeNothing : Prop :=
  (∀ (r0 r1 r2 : RowMask) (s : State), 3 ≤ s.pb.toNat / 2 % 16 → exec (.dpread r0 r1 r2) s =
    .next { s with out := { rdata := some 0xFF, cass := none, frame := none } }) ∧
  (∀ (v : Byte) (s : State), s.pb.toNat / 2 % 16 ≤ 3 ∨ 10 ≤ s.pb.toNat / 2 % 16 →
    exec (.dpwrite v) s = .next { s with out := Output.nothing }) ∧
  (∀ (v : Byte) (s : State), v.getLsbD 7 = false → exec (.dpwrite v) s = .next { s with out := Output.nothing }) ∧
  (∀ (v : Byte) (s : State), v.getLsbD 5 = false →
    exec (.pbwrite v) s = .next { s with pb := v, out := Output.nothing }) ∧
  (∀ s : State, s.run = 0 → exec (.stick false) s = .next { s with out := Output.nothing }) ∧
  (∀ s : State, (∀ d, s.cnt.get d = 0) → exec .ptick s = .next { s with out := Output.nothing }) ∧
  (∀ (md : Bool) (s : State), exec (.poll s.rstl s.irql md) s = .next { s with out := Output.nothing }) ∧
  (∀ (w : Request) (s : State), 0xC ≤ w.toNat / 2 ^ 28 →
    exec (decode w) s = .next { s with out := Output.nothing })

/-- Each item is changed by no operation but those the table of items says write it, and no operation changes the
parameters or the waiting requests (10_state.md R10, column "written by"). -/
def Obligations.OnlyItsWritersChangeAnItem : Prop :=
  ∀ (i : Instr) (s t : State), exec i s = .next t →
    t.cfg = s.cfg ∧ t.pending = s.pending ∧
    (t.pb ≠ s.pb → i.mnemonic = .PBWRITE ∨ i.mnemonic = .RESET) ∧
    (t.cnt ≠ s.cnt → i.mnemonic = .DPWRITE ∨ i.mnemonic = .PTICK ∨ i.mnemonic = .RESET) ∧
    (t.latch ≠ s.latch → i.mnemonic = .DPWRITE) ∧
    (t.run ≠ s.run → i.mnemonic = .STICK) ∧
    (t.cbit ≠ s.cbit → i.mnemonic = .STICK) ∧
    (t.vram ≠ s.vram → i.mnemonic = .VWRITE) ∧
    (t.rstl ≠ s.rstl → i.mnemonic = .POLL) ∧
    (t.irql ≠ s.irql → i.mnemonic = .POLL) ∧
    (t.clvl ≠ s.clvl → ∃ v, i = .pbwrite v ∧ v.getLsbD 5 = true)

/-- The nine items are the whole state: two states that agree on them and on the parameters give the same outputs and
the same blocks under every list of operations (10_state.md R10, R24); the five items of the document's save-state list
alone do not fix the signals. -/
def Obligations.NineItemsAreTheWholeState : Prop :=
  (∀ (is : List Instr) (s t : State), s.toBlock = t.toBlock → s.cfg = t.cfg →
    outputsOf is s = outputsOf is t ∧
    ∃ u v, runOps is s = .next u ∧ runOps is t = .next v ∧ u.toBlock = v.toBlock) ∧
  (∃ s t : State, s.cfg = t.cfg ∧ s.out = t.out ∧ s.toBlock.documentSave = t.toBlock.documentSave ∧ ¬ SameSignals s t)

/-- Every step from a state of the invariant gives a state of the invariant: parameters as 00_scope.md R5 asks, VideoRAM
canonical and within the buffer. -/
def Obligations.StepKeepsInvariant : Prop := ∀ s t : State, s.Inv → step s = .next t → t.Inv

/-- Every power-on state whose parameters and drawn VideoRAM meet the invariant meets it, and so does `State.reset`,
whose parameters and draw are the model's choice (logs 3, 4, 5). -/
def Obligations.PowerOnMeetsInvariant : Prop :=
  (∀ (c : Config) (draw : Block), c.wf → draw.vram.wf → draw.vram.within c.vramSize → (State.powerOn c draw).Inv) ∧
  State.reset.Inv

/-- Under every interleaving of the event sources the invariant holds on, and the parameters stay as they are
(20_memory.md R41). -/
def Obligations.EveryInterleavingKeepsInvariant : Prop :=
  ∀ s t : State, s.Inv → Reaches s t → t.Inv ∧ t.cfg = s.cfg

/-! ## The display -/

/-- What a digit shows is blank exactly at counter 0 and its latch otherwise, at the signals, and it goes blank in the
very step in which its counter reaches 0 (42_persistence.md R91). The value and the instant of blank are the spec's choice
(D8, D9; log 10). -/
def Obligations.DigitIsBlankAtCounterZero : Prop :=
  (∀ (s : State) (d : Fin 6), s.pinsOut.seg.get d = if s.cnt.get d = 0 then 0x00 else s.latch.get d) ∧
  (∀ (s : State) (d : Fin 6), s.cnt.get d = 1 → ∃ t, exec .ptick s = .next t ∧ t.pinsOut.seg.get d = 0x00) ∧
  (∀ (s : State) (d : Fin 6), 2 ≤ (s.cnt.get d).toNat →
    ∃ t, exec .ptick s = .next t ∧ t.pinsOut.seg.get d = s.latch.get d)

/-- A counter "saturates at 0 going down and is never incremented; it is loaded with the constant 15, which is its maximum":
each operation leaves it, takes one from a nonzero one (PTICK), loads 15 (a qualifying DPWRITE) or clears it (RESET)
(42_persistence.md R93). -/
def Obligations.CountersNeverWrap : Prop :=
  (∀ (i : Instr) (s t : State) (d : Fin 6), exec i s = .next t →
    t.cnt.get d = s.cnt.get d ∨
    (i = .ptick ∧ s.cnt.get d ≠ 0 ∧ (t.cnt.get d).toNat + 1 = (s.cnt.get d).toNat) ∨
    (Qualifies d i s ∧ t.cnt.get d = 15) ∨
    (i = .reset ∧ t.cnt.get d = 0)) ∧
  (∀ (s : State) (d : Fin 6), s.cnt.get d = 0 → ∃ t, exec .ptick s = .next t ∧ t.cnt.get d = 0) ∧
  (∀ c : Count, c.toNat ≤ 15)

/-- After a qualifying write to digit `d` and any operations with `k` PTICKs among them, no RESET and no further
qualifying write to `d`, the counter is `max(15 - k, 0)` and the digit shows the pattern for `k <= 14` and is blank for
`k >= 15` (42_persistence.md R92; D8, D9; log 10). -/
def Obligations.DigitLifetimeIsFifteenTicks : Prop :=
  ∀ (s : State) (d : Fin 6) (v : Byte), v.getLsbD 7 = true → s.pb.toNat / 2 % 16 = d.val + 4 →
    ∃ t, exec (.dpwrite v) s = .next t ∧ ∀ is : List Instr, NoWriteTo d is t → .reset ∉ is →
      ∃ u, runOps is t = .next u ∧ (u.cnt.get d).toNat = 15 - is.count .ptick ∧
        (is.count .ptick ≤ 14 → u.pinsOut.seg.get d = v.extractLsb' 0 7) ∧
        (15 ≤ is.count .ptick → u.pinsOut.seg.get d = 0x00)

/-- To blank a digit now, write 0x80 to it; a byte with bit 7 clear blanks nothing (70_reset_and_hazards.md R152).
That the pattern 0x00 is what a blank digit shows is the spec's own choice (D8; log 10). -/
def Obligations.WritingHex80BlanksADigit : Prop :=
  (∀ (s : State) (d : Fin 6), s.pb.toNat / 2 % 16 = d.val + 4 → ∃ t, exec (.dpwrite 0x80) s = .next t ∧
    t.latch.get d = 0x00 ∧ t.cnt.get d = 15 ∧ t.pinsOut.seg.get d = 0x00) ∧
  (∀ (s : State) (v : Byte), v.getLsbD 7 = false → ∃ t, exec (.dpwrite v) s = .next t ∧
    t.pinsOut.seg = s.pinsOut.seg)

/-- A latch behind a zero counter cannot be observed: states that differ in such latches alone give the same outputs and
the same signals under every list of operations (10_state.md R23). -/
def Obligations.LatchBehindZeroCounterIsHidden : Prop :=
  ∀ (is : List Instr) (s t : State), SameButDarkLatch s t →
    outputsOf is s = outputsOf is t ∧
    ∃ u v, runOps is s = .next u ∧ runOps is t = .next v ∧ SameButDarkLatch u v ∧ SameSignals u v

/-- Under a fair schedule, in which the persistence tick recurs without bound, a digit that is written no more is blank
from some point on for ever (20_memory.md R41, 42_persistence.md R92). The fairness and the free order of events are the
spec's own choice (D18, D27; log 14), and so is the value 0x00 of blank (D8; log 10). -/
def Obligations.UnwrittenDigitGoesBlankForEver : Prop :=
  ∀ (f : Nat → Instr) (s : State) (d : Fin 6), FairSchedule f → (∀ n, NoWriteTo d (firstOps f n) s) →
    ∃ N, ∀ n, N ≤ n → ∃ u, runOps (firstOps f n) s = .next u ∧ u.pinsOut.seg.get d = 0x00

/-! ## The multiplexer -/

/-- "The select index held in `PB` is the only thing that routes a data-port access; it is changed only by PBWRITE and
RESET, and it is used as it stands at the moment of the access"; no operation chooses which comes next (40_mux.md R73);
and, for every index, what a DPREAD returns and which digit a DPWRITE with bit 7 set changes (20_memory.md R33). -/
def Obligations.LatestPortBWriteRoutesAccesses : Prop :=
  (∀ (i : Instr) (s t : State), exec i s = .next t → t.pending = s.pending ∧
    (t.pb ≠ s.pb → i.mnemonic = .PBWRITE ∨ i.mnemonic = .RESET)) ∧
  (∀ (s : State) (v : Byte) (i : Instr), i.mnemonic = .DPREAD ∨ i.mnemonic = .DPWRITE →
    v.toNat / 2 % 16 = s.pb.toNat / 2 % 16 → ∃ t, exec i s = .next t ∧ exec i { s with pb := v } = .next { t with pb := v }) ∧
  ∀ (s : State) (v : Byte) (is : List Instr),
    (∀ i ∈ is, i.mnemonic ≠ .PBWRITE ∧ i.mnemonic ≠ .RESET) →
    ∃ u, runOps (.pbwrite v :: is) s = .next u ∧ u.pb = v ∧
      (∀ r0 r1 r2 : RowMask, ∃ t b, exec (.dpread r0 r1 r2) u = .next t ∧ t.out.rdata = some b ∧
        (v.toNat / 2 % 16 = 0 → b.extractLsb' 0 7 = r0) ∧
        (v.toNat / 2 % 16 = 1 → b.extractLsb' 0 7 = r1) ∧
        (v.toNat / 2 % 16 = 2 → b.extractLsb' 0 7 = r2) ∧
        (3 ≤ v.toNat / 2 % 16 → b = 0xFF)) ∧
      (∀ p : Byte, p.getLsbD 7 = true → ∃ t, exec (.dpwrite p) u = .next t ∧
        ∀ d : Fin 6, if v.toNat / 2 % 16 = d.val + 4
          then t.cnt.get d = 15 ∧ t.latch.get d = p.extractLsb' 0 7
          else t.cnt.get d = u.cnt.get d ∧ t.latch.get d = u.latch.get d)

/-- What each pseudo-operation expands to, byte for byte, and that SHOW leaves its pattern on its digit
(30_encoding.md R62; the spec's own, D3). -/
def Obligations.PseudoOperationsExpand : Prop :=
  (∀ r : Fin 3, expandPseudo (.selrow r) = [.pbwrite (BitVec.ofNat 8 (2 * r.val))]) ∧
  (∀ d : Fin 6, expandPseudo (.seldig d) = [.pbwrite (BitVec.ofNat 8 (2 * (d.val + 4)))]) ∧
  (∀ (d : Fin 6) (p : Pattern), expandPseudo (.showDigit d p) =
    expandPseudo (.seldig d) ++ [.dpwrite (BitVec.ofNat 8 (0x80 + p.toNat))]) ∧
  expandPseudo (.tone false) = [.pbwrite 0x20] ∧ expandPseudo (.tone true) = [.pbwrite 0xA0] ∧
  (∀ line, expandPseudo (.rep 0 line) = []) ∧
  (∀ n line, expandPseudo (.rep (n + 1) line) = expandPseudo line ++ expandPseudo (.rep n line)) ∧
  (∀ (d : Fin 6) (p : Pattern) (s : State), ∃ t, runOps (expandPseudo (.showDigit d p)) s = .next t ∧
    t.latch.get d = p ∧ t.cnt.get d = 15 ∧ t.pinsOut.seg.get d = p ∧ t.clvl = s.clvl)

/-! ## The cassette -/

/-- What follows of the decoder: item by item 1 to 6 of 41_cassette.md R84. -/
def Obligations.DecoderProperties : Prop :=
  -- 1: after a non-positive sample RUN is 0
  (∀ s t : State, exec (.stick false) s = .next t → t.run = 0) ∧
  -- 2: k positive samples after a non-positive one, other operations between them or not, give RUN = k
  (∀ (s : State) (is : List Instr), (∀ i ∈ is, i ≠ .stick false) →
    ∃ u, runOps (.stick false :: is) s = .next u ∧ u.run = is.count (.stick true)) ∧
  -- 3: CBIT changes only at a non-positive sample that finds a run
  (∀ (i : Instr) (s t : State), exec i s = .next t → t.cbit ≠ s.cbit → i = .stick false ∧ s.run ≠ 0) ∧
  -- 4: the new CBIT depends only on the length of the run just ended
  (∀ s s' t t' : State, s.run = s'.run → s.run ≠ 0 → exec (.stick false) s = .next t →
    exec (.stick false) s' = .next t' → t.cbit = t'.cbit) ∧
  -- 5: 1 to 7 samples give 1; 8 or more give 0
  (∀ s : State, s.run ≠ 0 → ∃ t, exec (.stick false) s = .next t ∧ (t.cbit = true ↔ s.run ≤ 7)) ∧
  -- 6: from the second end of a run on, nothing is left of the unspecified initial RUN and CBIT
  (∀ (s : State) (n : Nat) (c : Bool) (is : List Instr), (∀ i ∈ is, i ≠ .stick false) → .stick true ∈ is →
    ∃ u, runOps (.stick false :: is ++ [.stick false]) s = .next u ∧
      runOps (.stick false :: is ++ [.stick false]) { s with run := n, cbit := c } = .next u)

/-- The one status flag: only the end of a positive run sets `CBIT` (10_state.md R15, R22), to 1 for a length below 8 and to
0 from 8 on, never classifying a length of 0 (41_cassette.md R83); only PBREAD reads it, returning its complement in bit
7; no operation writes it as a side effect of something else. -/
def Obligations.ClassifiedBitIsSetByRunEndAndReadByPbread : Prop :=
  (∀ (i : Instr) (s t : State), exec i s = .next t → t.cbit ≠ s.cbit → i = .stick false ∧ s.run ≠ 0) ∧
  (∀ s : State, s.run ≠ 0 → ∃ t, exec (.stick false) s = .next t ∧ t.cbit = decide (s.run < 8)) ∧
  (∀ (i : Instr) (s : State) (c : Bool), i ≠ .pbread → ∃ t t', exec i s = .next t ∧
    exec i { s with cbit := c } = .next t' ∧ t' = { t with cbit := t'.cbit }) ∧
  (∀ s : State, s.pb.getLsbD 5 = false → ∃ t t', exec .pbread { s with cbit := true } = .next t ∧
    exec .pbread { s with cbit := false } = .next t' ∧ t.out.rdata = some 0x7F ∧ t'.out.rdata = some 0xFF)

/-- "a counter that stops counting at any value of 8 or more behaves the same at every output": states that differ only
in a `RUN` of 8 or more give the same outputs and signals under every list of operations (10_state.md R14). -/
def Obligations.RunBeyondThresholdIsHidden : Prop :=
  ∀ (is : List Instr) (s t : State), SameButLongRun s t →
    outputsOf is s = outputsOf is t ∧
    ∃ u v, runOps is s = .next u ∧ runOps is t = .next v ∧ SameButLongRun u v ∧ SameSignals u v

/-- The cassette output of any operations is one event for each PBWRITE whose byte has bit 5 set, the level of its bit 7,
in order, and no other; `CLVL` is the level of the latest event and does not change between events
(41_cassette.md R82; D12, log 20). -/
def Obligations.CassetteOutputIsTheQualifyingWrites : Prop :=
  ∀ (is : List Instr) (s : State), ∃ u, runOps is s = .next u ∧
    cassEvents is s = is.filterMap emittedLevel ∧
    (match (cassEvents is s).getLast? with
      | none => u.clvl = s.clvl
      | some l => u.clvl = decide (l = .minus))

/-! ## The video RAM -/

/-- What was written is read back whatever comes between, other than a VWRITE to the same address; no write changes what
another address reads; of two writes the last stands; two RENDERs with no VWRITE between give one frame
(43_video.md R104, items 1 to 4). -/
def Obligations.VideoRoundTripLaws : Prop :=
  (∀ (s : State) (a : Addr) (v : Byte) (is : List Instr),
    (∀ b w, .vwrite b w ∈ is → b.toNat % 2 ^ s.cfg.vaW ≠ a.toNat % 2 ^ s.cfg.vaW) →
    ∃ u t, runOps (.vwrite a v :: is) s = .next u ∧ exec (.vread a) u = .next t ∧ t.out.rdata = some v) ∧
  (∀ (s : State) (a b : Addr) (v : Byte), b.toNat % 2 ^ s.cfg.vaW ≠ a.toNat % 2 ^ s.cfg.vaW →
    ∃ t u u', exec (.vwrite a v) s = .next t ∧ exec (.vread b) s = .next u ∧ exec (.vread b) t = .next u' ∧
      u'.out = u.out) ∧
  (∀ (s : State) (a : Addr) (v w : Byte), ∃ t, runOps [.vwrite a v, .vwrite a w] s = .next t ∧
    t.vram.read (a.toNat % 2 ^ s.cfg.vaW) = w) ∧
  (∀ (s : State) (flip : Bool) (is : List Instr), (∀ i ∈ is, i.mnemonic ≠ .VWRITE) →
    ∃ t u v, exec (.render flip) s = .next t ∧ runOps is t = .next u ∧ exec (.render flip) u = .next v ∧
      v.out = t.out)

/-- A well-formed address is the buffer index itself, "no address bit is dropped"; two different ones are two different
bytes, "no masking/mirroring"; with `VA_W = 16` every request is well formed (30_encoding.md R51, 20_memory.md R32). -/
def Obligations.WellFormedAddressIsTheIndex : Prop :=
  (∀ (s : State) (a : Addr), Instr.wf s.cfg (.vread a) = true →
    ∃ t, exec (.vread a) s = .next t ∧ t.out.rdata = some (s.vram.read a.toNat)) ∧
  (∀ (s : State) (a b : Addr) (v : Byte), Instr.wf s.cfg (.vwrite a v) = true → Instr.wf s.cfg (.vread b) = true →
    ∃ t u, exec (.vwrite a v) s = .next t ∧ exec (.vread b) t = .next u ∧
      u.out.rdata = some (if b = a then v else s.vram.read b.toNat)) ∧
  (∀ (c : Config) (i : Instr), c.vaW = 16 → i.wf c = true)

/-- Whatever bytes VideoRAM holds at power-on, some draw has them, in the canonical form and within the buffer, so that
"an arbitrary value" of 10_state.md R26 is covered for VideoRAM too (log 5). -/
def Obligations.EveryVideoRamContentsCanBeDrawn : Prop :=
  ∀ (c : Config) (f : Nat → Byte), ∃ draw : Block, (State.powerOn c draw).vram.wf ∧
    (State.powerOn c draw).vram.within c.vramSize ∧
    ∀ a, a < c.vramSize → (State.powerOn c draw).vram.read a = f a

/-- Every bit of the shown region is the pixel at its own place, and no two bits share a pixel
(43_video.md R104, item 5). -/
def Obligations.EveryShownBitIsOnePixel : Prop :=
  (∀ (s : State) (flip : Bool) (a b : Nat), a < s.cfg.rowBytes * s.cfg.rows → b < 8 →
    ∃ t f, exec (.render flip) s = .next t ∧ t.out.frame = some f ∧
      f.pix (8 * (a % s.cfg.rowBytes) + 7 - b)
        (if flip = true then s.cfg.rows - 1 - a / s.cfg.rowBytes else a / s.cfg.rowBytes)
        = some ((s.vram.read a).getLsbD b)) ∧
  (∀ (c : Config) (a b a' b' : Nat), a < c.rowBytes * c.rows → a' < c.rowBytes * c.rows → b < 8 → b' < 8 →
    8 * (a % c.rowBytes) + 7 - b = 8 * (a' % c.rowBytes) + 7 - b' → a / c.rowBytes = a' / c.rowBytes →
    a = a' ∧ b = b')

/-- The video path shares no state with the other components: the VideoRAM after any operations is that after the video
operations among them, and everything else is what the other operations alone leave (43_video.md). -/
def Obligations.VideoPathIsIndependent : Prop :=
  ∀ (is : List Instr) (s : State), ∃ u u1 u2, runOps is s = .next u ∧
    runOps (is.filter isVideo) s = .next u1 ∧ runOps (is.filter (fun i => !isVideo i)) s = .next u2 ∧
    u.toBlock = { u2.toBlock with vram := u1.vram } ∧ u1.toBlock = { s.toBlock with vram := u1.vram }

/-! ## The lines -/

/-- "POLL touches only `RSTL` and `IRQL`; no other operation touches them. POLL commutes with every operation except
another POLL" (44_lines.md R113). -/
def Obligations.PollIsIndependentOfTheRest : Prop :=
  (∀ (rs st md : Bool) (s t : State), exec (.poll rs st md) s = .next t →
    t.toBlock = { s.toBlock with rstl := t.rstl, irql := t.irql }) ∧
  (∀ (i : Instr) (s t : State), exec i s = .next t → i.mnemonic ≠ .POLL → t.rstl = s.rstl ∧ t.irql = s.irql) ∧
  (∀ (rs st md : Bool) (i : Instr) (s : State), i.mnemonic ≠ .POLL → CommuteAt (.poll rs st md) i s) ∧
  (∃ (i j : Instr) (s : State), i.mnemonic = .POLL ∧ j.mnemonic = .POLL ∧ ¬ CommuteAt i j s)

/-- The two lines are outputs of the block, written only by POLL; whatever they are, every operation has the same output and
leaves everything but the lines the same, POLL included, which alone compares them with its inputs (10_state.md R17). What
a POLL leaves in the lines themselves is the statement `PollMakesLinesFollowInputs`. -/
def Obligations.AssertedLinesHaveNoEffectInside : Prop :=
  (∀ s : State, s.pinsOut.rstLine = s.rstl ∧ s.pinsOut.irqLine = s.irql) ∧
  ∀ (i : Instr) (s : State) (r q : Bool), ∃ t t', exec i s = .next t ∧
    exec i { s with rstl := r, irql := q } = .next t' ∧ t' = { t with rstl := t'.rstl, irql := t'.irql } ∧
    (i.mnemonic ≠ .POLL → t.rstl = s.rstl ∧ t.irql = s.irql)

/-! ## Ordering and the interface -/

/-- Reads have no side effect, and which operations may be repeated with no further effect, row by row
(20_memory.md R37). The canonical form of the memory (`StepKeepsInvariant`) makes equal memories equal lists. -/
def Obligations.ReadsAreFreeOfSideEffectsAndWritesIdempotent : Prop :=
  (∀ (i : Instr) (s : State), i.mnemonic = .DPREAD ∨ i.mnemonic = .PBREAD ∨ i.mnemonic = .VREAD ∨ i.mnemonic = .RENDER →
    ∃ t, exec i s = .next t ∧ t.toBlock = s.toBlock ∧ exec i t = .next t) ∧
  (∀ (i : Instr) (s : State), s.vram.wf →
    i.mnemonic = .DPWRITE ∨ i.mnemonic = .VWRITE ∨ i.mnemonic = .POLL ∨ i.mnemonic = .RESET →
    ∃ t, exec i s = .next t ∧ exec i t = .next t) ∧
  (∀ (v : Byte) (s : State), ∃ t u, exec (.pbwrite v) s = .next t ∧ exec (.pbwrite v) t = .next u ∧
    u.toBlock = t.toBlock ∧ (v.getLsbD 5 = true → t.out.cass ≠ none ∧ u.out.cass = t.out.cass)) ∧
  (∀ s : State, ∃ t, exec (.stick true) s = .next t ∧ t.run = s.run + 1) ∧
  (∀ (s : State) (d : Fin 6), s.cnt.get d ≠ 0 → ∃ t, exec .ptick s = .next t ∧ t.cnt.get d ≠ s.cnt.get d)

/-- Which pairs of operations give the same state and outputs in either order, row by row of the table of
20_memory.md R41 (its POLL row is `PollIsIndependentOfTheRest`), and the pair that does not: a qualifying DPWRITE and
PTICK. -/
def Obligations.CommutingPairs : Prop :=
  (∀ (p : Bool) (i : Instr) (s : State), i.mnemonic ≠ .STICK → i.mnemonic ≠ .PBREAD → CommuteAt (.stick p) i s) ∧
  (∀ (i : Instr) (s : State), (∀ d, ¬ Qualifies d i s) → CommuteAt .ptick i s) ∧
  (∀ (a : Addr) (v : Byte) (i : Instr) (s : State), s.vram.wf → i.mnemonic ≠ .RENDER →
    (∀ b, (i = .vread b ∨ ∃ w, i = .vwrite b w) → b.toNat % 2 ^ s.cfg.vaW ≠ a.toNat % 2 ^ s.cfg.vaW) →
    CommuteAt (.vwrite a v) i s) ∧
  (∀ (v : Byte) (i : Instr) (s : State),
    i.mnemonic ∈ [Mnemonic.STICK, .PTICK, .POLL, .VREAD, .VWRITE, .RENDER] → CommuteAt (.pbwrite v) i s) ∧
  (∀ m ∈ [Mnemonic.DPREAD, .DPWRITE, .PBREAD, .PBWRITE, .RESET],
    ∃ (v : Byte) (i : Instr) (s : State), i.mnemonic = m ∧ ¬ CommuteAt (.pbwrite v) i s) ∧
  (∀ (d : Fin 6) (v : Byte) (s : State), Qualifies d (.dpwrite v) s →
    ∃ t u, runOps [.dpwrite v, .ptick] s = .next t ∧ runOps [.ptick, .dpwrite v] s = .next u ∧
      t.cnt.get d = 14 ∧ u.cnt.get d = 15)

/-- The signals add no behaviour: one strobe is its operation with the data and side-band inputs of the step, none is
the idle step, two at once are refused; the output signals are the step's output and functions of the state
(20_memory.md R45). -/
def Obligations.EachStrobeIsItsOperation : Prop :=
  (∀ (p : PinsIn) (s : State) (k : Nat), p.strobes = (List.range 11).map (fun j => j == k) →
    stepPins p s = match k with
      | 0 => exec (.dpread p.row0 p.row1 p.row2) s
      | 1 => exec (.dpwrite p.wdata) s
      | 2 => exec .pbread s
      | 3 => exec (.pbwrite p.wdata) s
      | 4 => exec (.vread p.va) s
      | 5 => exec (.vwrite p.va p.wdata) s
      | 6 => exec (.poll p.rsIn p.stIn p.mdIn) s
      | 7 => exec (.stick p.sampPos) s
      | 8 => exec .ptick s
      | 9 => exec (.render p.flip) s
      | 10 => exec .reset s
      | _ => .next { s with out := Output.nothing }) ∧
  (∀ (p : PinsIn) (s : State), 2 ≤ p.strobes.count true → stepPins p s = .refused .overlappingStrobes) ∧
  (∀ s : State, s.pinsOut.rdata = s.out.rdata ∧ s.pinsOut.cassStb = s.out.cass.isSome ∧ s.pinsOut.cassLvl = s.clvl ∧
    s.pinsOut.rstLine = s.rstl ∧ s.pinsOut.irqLine = s.irql ∧ s.pinsOut.pix = s.out.frame)

/-- The trace line written for an operation and what it produced passes the check from the same state, and the check
gives the state the operation leaves (30_encoding.md R61). -/
def Obligations.TraceLineOfAnOperationChecks : Prop :=
  ∀ (i : Instr) (s t : State), exec i s = .next t → checkLine (traceLine i t.out) s = some t
end

