-- ==== Sys2Proof/Laws/Decode.lean ====
section
/-! SUPPORT. The bits of a request word built from its opcode and argument, and from them each field
(30_encoding.md R51). -/

namespace Sys2Proof

/-- A bit of a request word: of `ARG` below 24, 0 in 27:24, of `OP` from 28 on. -/
theorem requestWord_bit (op : BitVec 4) (arg : BitVec 24) (i : Nat) :
    (requestWord op arg).getLsbD i =
      if i < 24 then arg.getLsbD i else if i < 28 then false else op.getLsbD (i - 28) := by
  unfold requestWord
  rw [BitVec.getLsbD_append, BitVec.getLsbD_append]
  split
  · rfl
  · split
    · rw [if_pos (by omega)]; simp
    · rw [if_neg (by omega)]; congr 1

/-- A bit of format K's argument (30_encoding.md R51). -/
theorem argK_bit (r0 r1 r2 : RowMask) (i : Nat) :
    (argK r0 r1 r2).getLsbD i =
      if i < 7 then r0.getLsbD i
      else if i < 8 then false
      else if i < 15 then r1.getLsbD (i - 8)
      else if i < 16 then false
      else r2.getLsbD (i - 16) := by
  unfold argK
  rw [BitVec.getLsbD_append, BitVec.getLsbD_append, BitVec.getLsbD_append, BitVec.getLsbD_append,
    BitVec.getLsbD_append]
  by_cases h0 : i < 7
  · rw [if_pos h0, if_pos h0]
  rw [if_neg h0, if_neg h0]
  by_cases h1 : i < 8
  · rw [if_pos (by omega), if_pos h1]
    simp
  rw [if_neg (by omega), if_neg h1]
  by_cases h2 : i < 15
  · rw [if_pos (by omega), if_pos h2, show i - 7 - 1 = i - 8 by omega]
  rw [if_neg (by omega), if_neg h2]
  by_cases h3 : i < 16
  · rw [if_pos (by omega), if_pos h3]
    simp
  rw [if_neg (by omega), if_neg h3, show i - 7 - 1 - 7 - 1 = i - 16 by omega]
  by_cases h4 : i < 23
  · rw [if_pos (by omega)]
  · rw [if_neg (by omega), BitVec.getLsbD_of_ge r2 _ (by omega)]
    simp

/-- A bit of format D's argument (30_encoding.md R51). -/
theorem argD_bit (v : Byte) (i : Nat) : (argD v).getLsbD i = if i < 8 then v.getLsbD i else false := by
  unfold argD
  rw [BitVec.getLsbD_append]
  split <;> simp

/-- A bit of format V's argument (30_encoding.md R51). -/
theorem argV_bit (a : Addr) (v : Byte) (i : Nat) :
    (argV a v).getLsbD i = if i < 8 then v.getLsbD i else a.getLsbD (i - 8) := by
  unfold argV
  rw [BitVec.getLsbD_append]

/-- A bit of format S's argument (30_encoding.md R51). -/
theorem argS_bit (c b a : Bool) (i : Nat) :
    (argS c b a).getLsbD i = if i = 0 then a else if i = 1 then b else if i = 2 then c else false := by
  unfold argS
  rw [BitVec.getLsbD_append, BitVec.getLsbD_append, BitVec.getLsbD_append]
  by_cases h0 : i = 0
  · simp [h0]
  by_cases h1 : i = 1
  · simp [h1]
  by_cases h2 : i = 2
  · simp [h2]
  · simp [h0, h1, h2, show ¬ i - 1 < 1 by omega, show ¬ i - 1 - 1 < 1 by omega]

/-- No bit of format N's argument is set (30_encoding.md R51). -/
theorem argN_bit (i : Nat) : argN.getLsbD i = false := by simp [argN]

theorem opField_requestWord (op : BitVec 4) (arg : BitVec 24) : opField (requestWord op arg) = op := by
  apply BitVec.eq_of_getLsbD_eq
  intro i hi
  rw [opField, BitVec.getLsbD_extractLsb', requestWord_bit, if_neg (by omega), if_neg (by omega)]
  simp [hi]

theorem row0Field_argK (op : BitVec 4) (a b c : RowMask) : row0Field (requestWord op (argK a b c)) = a := by
  apply BitVec.eq_of_getLsbD_eq
  intro i hi
  rw [row0Field, BitVec.getLsbD_extractLsb', requestWord_bit, if_pos (by omega), argK_bit, if_pos (by omega)]
  simp [hi]

theorem row1Field_argK (op : BitVec 4) (a b c : RowMask) : row1Field (requestWord op (argK a b c)) = b := by
  apply BitVec.eq_of_getLsbD_eq
  intro i hi
  rw [row1Field, BitVec.getLsbD_extractLsb', requestWord_bit, if_pos (by omega), argK_bit, if_neg (by omega),
    if_neg (by omega), if_pos (by omega)]
  simp [hi]

theorem row2Field_argK (op : BitVec 4) (a b c : RowMask) : row2Field (requestWord op (argK a b c)) = c := by
  apply BitVec.eq_of_getLsbD_eq
  intro i hi
  rw [row2Field, BitVec.getLsbD_extractLsb', requestWord_bit, if_pos (by omega), argK_bit, if_neg (by omega),
    if_neg (by omega), if_neg (by omega), if_neg (by omega)]
  simp [hi]

theorem dataField_argD (op : BitVec 4) (v : Byte) : dataField (requestWord op (argD v)) = v := by
  apply BitVec.eq_of_getLsbD_eq
  intro i hi
  rw [dataField, BitVec.getLsbD_extractLsb', requestWord_bit, if_pos (by omega), argD_bit, if_pos (by omega)]
  simp [hi]

theorem dataField_argV (op : BitVec 4) (a : Addr) (v : Byte) :
    dataField (requestWord op (argV a v)) = v := by
  apply BitVec.eq_of_getLsbD_eq
  intro i hi
  rw [dataField, BitVec.getLsbD_extractLsb', requestWord_bit, if_pos (by omega), argV_bit, if_pos (by omega)]
  simp [hi]

theorem addrField_argV (op : BitVec 4) (a : Addr) (v : Byte) :
    addrField (requestWord op (argV a v)) = a := by
  apply BitVec.eq_of_getLsbD_eq
  intro i hi
  rw [addrField, BitVec.getLsbD_extractLsb', requestWord_bit, if_pos (by omega), argV_bit, if_neg (by omega)]
  simp [hi]

theorem arg0Field_argS (op : BitVec 4) (c b a : Bool) : arg0Field (requestWord op (argS c b a)) = a := by
  rw [arg0Field, requestWord_bit, if_pos (by omega), argS_bit]
  rfl

theorem arg1Field_argS (op : BitVec 4) (c b a : Bool) : arg1Field (requestWord op (argS c b a)) = b := by
  rw [arg1Field, requestWord_bit, if_pos (by omega), argS_bit]
  rfl

theorem arg2Field_argS (op : BitVec 4) (c b a : Bool) : arg2Field (requestWord op (argS c b a)) = c := by
  rw [arg2Field, requestWord_bit, if_pos (by omega), argS_bit]
  rfl

end Sys2Proof
end

