-- ==== Sys2Proof/Laws/Digits.lean ====
section
/-! SUPPORT. The six-element arrays: reading after writing, after a map, and equality from the elements. -/

namespace Sys2Proof.Machine

variable {α β : Type}

theorem digit_cases {p : Fin 6 → Prop} (h0 : p 0) (h1 : p 1) (h2 : p 2) (h3 : p 3) (h4 : p 4) (h5 : p 5) :
    ∀ i, p i
  | 0 => h0
  | 1 => h1
  | 2 => h2
  | 3 => h3
  | 4 => h4
  | 5 => h5

@[simp] theorem digits_get_set_same (x : Digits α) (i : Fin 6) (v : α) : (x.set i v).get i = v := by
  revert i
  exact digit_cases rfl rfl rfl rfl rfl rfl

theorem digits_get_set_ne (x : Digits α) {i j : Fin 6} (v : α) (h : j ≠ i) : (x.set i v).get j = x.get j := by
  have key : ∀ i j : Fin 6, j ≠ i → (x.set i v).get j = x.get j := by
    refine digit_cases ?_ ?_ ?_ ?_ ?_ ?_ <;> refine digit_cases ?_ ?_ ?_ ?_ ?_ ?_ <;> intro h <;>
      first | rfl | exact absurd rfl h
  exact key i j h

@[simp] theorem digits_get_map (f : α → β) (x : Digits α) (i : Fin 6) : (x.map f).get i = f (x.get i) := by
  revert i
  exact digit_cases rfl rfl rfl rfl rfl rfl

@[simp] theorem digits_get_ofFn (f : Fin 6 → α) (i : Fin 6) : (Digits.ofFn f).get i = f i := by
  revert i
  exact digit_cases rfl rfl rfl rfl rfl rfl

@[simp] theorem digits_get_fill (v : α) (i : Fin 6) : (Digits.fill v).get i = v := by
  revert i
  exact digit_cases rfl rfl rfl rfl rfl rfl

theorem digits_eq_of_get {x y : Digits α} (h : ∀ i, x.get i = y.get i) : x = y := by
  obtain ⟨x0, x1, x2, x3, x4, x5⟩ := x
  obtain ⟨y0, y1, y2, y3, y4, y5⟩ := y
  have e0 : x0 = y0 := h 0
  have e1 : x1 = y1 := h 1
  have e2 : x2 = y2 := h 2
  have e3 : x3 = y3 := h 3
  have e4 : x4 = y4 := h 4
  have e5 : x5 = y5 := h 5
  rw [e0, e1, e2, e3, e4, e5]

theorem digits_set_set (x : Digits α) (i : Fin 6) (v w : α) : (x.set i v).set i w = x.set i w := by
  revert i
  exact digit_cases rfl rfl rfl rfl rfl rfl

end Sys2Proof.Machine
end

