-- ==== Sys2Proof/Laws/Operands.lean ====
section
/-! SUPPORT. The select decode, the fields of bytes, the classification and the decay, as arithmetic. -/

namespace Sys2Proof.Machine

theorem selField_eq (b : Byte) : selField b = b.toNat / 2 % 16 := by
  unfold selField
  rw [BitVec.toNat_and, BitVec.toNat_ushiftRight, Nat.shiftRight_eq_div_pow]
  exact Nat.and_two_pow_sub_one_eq_mod _ 4

theorem selField_lt (b : Byte) : selField b < 16 := by
  rw [selField_eq]
  exact Nat.mod_lt _ (by decide)

/-- The select decode with its constants written out (00_scope.md R6). -/
theorem target_eq (n : Nat) : target n =
    if 0 ≤ n ∧ n ≤ 2 then .row (Fin.ofNat 3 n)
    else if 4 ≤ n ∧ n ≤ 9 then .digit (Fin.ofNat 6 (n - 4))
    else .nothing := rfl

/-- A row is selected by its own number (30_encoding.md R56). -/
theorem target_eq_row_iff {n : Nat} {r : Fin 3} : target n = .row r ↔ n = r.val := by
  have hr := r.isLt
  rw [target_eq]
  split
  · next h =>
    rw [Target.row.injEq, Fin.ext_iff, Fin.val_ofNat, Nat.mod_eq_of_lt (by omega)]
  · split <;> (simp only [reduceCtorEq, false_iff]; omega)

/-- A digit is selected by its number plus 4 (30_encoding.md R56). -/
theorem target_eq_digit_iff {n : Nat} {d : Fin 6} : target n = .digit d ↔ n = d.val + 4 := by
  have hd := d.isLt
  rw [target_eq]
  split
  · simp only [reduceCtorEq, false_iff]; omega
  · split
    · next h =>
      rw [Target.digit.injEq, Fin.ext_iff, Fin.val_ofNat, Nat.mod_eq_of_lt (by omega)]
      omega
    · simp only [reduceCtorEq, false_iff]; omega

/-- 3 and 10 upwards select nothing (30_encoding.md R56). -/
theorem target_eq_nothing_iff {n : Nat} : target n = .nothing ↔ n = 3 ∨ 10 ≤ n := by
  rw [target_eq]
  split
  · simp only [reduceCtorEq, false_iff]; omega
  · split
    · simp only [reduceCtorEq, false_iff]; omega
    · simp only [true_iff]; omega

@[simp] theorem zext8_toNat (m : RowMask) : (zext8 m).toNat = m.toNat := by
  rw [zext8, BitVec.toNat_setWidth]
  exact Nat.mod_eq_of_lt (lt_trans m.isLt (by decide))

/-- Bit 7 of a row read is 0 (30_encoding.md R58). -/
theorem zext8_bit7 (m : RowMask) : (zext8 m).getLsbD 7 = false := by
  simp [zext8]

theorem classify_eq_true_iff {n : Nat} : classify n = true ↔ n < 8 :=
  decide_eq_true_iff (p := n < 8)

theorem classify_eq_false_iff {n : Nat} : classify n = false ↔ 8 ≤ n :=
  (decide_eq_false_iff_not (p := n < 8)).trans Nat.not_lt

@[simp] theorem nextRun_positive (n : Nat) : nextRun true n = n + 1 := rfl
@[simp] theorem nextRun_nonpositive (n : Nat) : nextRun false n = 0 := rfl
@[simp] theorem nextCbit_positive (n : Nat) (c : Bool) : nextCbit true n c = c := rfl
@[simp] theorem nextCbit_no_run (c : Bool) : nextCbit false 0 c = c := rfl
theorem nextCbit_run_end {n : Nat} (h : n ≠ 0) (c : Bool) : nextCbit false n c = classify n := by
  simp [nextCbit, h]

@[simp] theorem decay_zero : decay 0 = 0 := rfl
/-- "clamped at 0": the decay is natural-number subtraction (42_persistence.md R93). -/
theorem decay_toNat (c : Count) : (decay c).toNat = c.toNat - 1 := by
  revert c
  decide


end Sys2Proof.Machine
end

