-- ==== Sys2Proof/Laws/State.lean ====
section
/-! SUPPORT. The fields of a state after each named update, all by `rfl`, and what the ending of an operation can do. -/

namespace Sys2Proof.Machine

@[simp] theorem powerOn_pb (c : Config) (d : Block) : (State.powerOn c d).pb = 0 := rfl
@[simp] theorem powerOn_cnt (c : Config) (d : Block) : (State.powerOn c d).cnt = Digits.fill 0 := rfl
@[simp] theorem powerOn_latch (c : Config) (d : Block) : (State.powerOn c d).latch = d.latch := rfl
@[simp] theorem powerOn_run (c : Config) (d : Block) : (State.powerOn c d).run = d.run := rfl
@[simp] theorem powerOn_cbit (c : Config) (d : Block) : (State.powerOn c d).cbit = d.cbit := rfl
@[simp] theorem powerOn_vram (c : Config) (d : Block) : (State.powerOn c d).vram = d.vram := rfl
@[simp] theorem powerOn_rstl (c : Config) (d : Block) : (State.powerOn c d).rstl = d.rstl := rfl
@[simp] theorem powerOn_irql (c : Config) (d : Block) : (State.powerOn c d).irql = d.irql := rfl
@[simp] theorem powerOn_clvl (c : Config) (d : Block) : (State.powerOn c d).clvl = d.clvl := rfl
@[simp] theorem powerOn_cfg (c : Config) (d : Block) : (State.powerOn c d).cfg = c := rfl
@[simp] theorem powerOn_out (c : Config) (d : Block) : (State.powerOn c d).out = Output.nothing := rfl
@[simp] theorem powerOn_pending (c : Config) (d : Block) : (State.powerOn c d).pending = [] := rfl

@[simp] theorem putRequest_toBlock (s : State) (w : Request) : (s.putRequest w).toBlock = s.toBlock := rfl
@[simp] theorem putRequest_cfg (s : State) (w : Request) : (s.putRequest w).cfg = s.cfg := rfl
@[simp] theorem putRequest_out (s : State) (w : Request) : (s.putRequest w).out = s.out := rfl
@[simp] theorem putRequest_pending (s : State) (w : Request) : (s.putRequest w).pending = w :: s.pending := rfl

@[simp] theorem resume_toBlock (s : State) (b : Block) : (s.resume b).toBlock = b := rfl
@[simp] theorem resume_cfg (s : State) (b : Block) : (s.resume b).cfg = s.cfg := rfl
@[simp] theorem resume_out (s : State) (b : Block) : (s.resume b).out = s.out := rfl
@[simp] theorem resume_pending (s : State) (b : Block) : (s.resume b).pending = s.pending := rfl

@[simp] theorem takeRequest_putRequest (s : State) (w : Request) :
    (s.putRequest w).takeRequest = some (decode w, s) := rfl

/-- All that ending an operation can do: it answers a next state, which has the block and the output it is given and
keeps the parameters and the waiting requests. -/
theorem answer_next_iff {s t : State} {b : Block} {o : Output} :
    s.answer b o = .next t ↔ t.toBlock = b ∧ t.out = o ∧ t.cfg = s.cfg ∧ t.pending = s.pending := by
  obtain ⟨tb, tc, tout, tp⟩ := t
  constructor
  · intro h
    cases h
    exact ⟨rfl, rfl, rfl, rfl⟩
  · rintro ⟨rfl, rfl, rfl, rfl⟩
    rfl

theorem answer_eq (s : State) (b : Block) (o : Output) :
    s.answer b o = .next { toBlock := b, cfg := s.cfg, out := o, pending := s.pending } := rfl

@[simp] theorem nothing_rdata : Output.nothing.rdata = none := rfl
@[simp] theorem nothing_cass : Output.nothing.cass = none := rfl
@[simp] theorem nothing_frame : Output.nothing.frame = none := rfl
@[simp] theorem ofRead_rdata (v : Byte) : (Output.ofRead v).rdata = some v := rfl
@[simp] theorem ofRead_cass (v : Byte) : (Output.ofRead v).cass = none := rfl
@[simp] theorem ofRead_frame (v : Byte) : (Output.ofRead v).frame = none := rfl
@[simp] theorem ofCass_rdata (l : Level) : (Output.ofCass l).rdata = none := rfl
@[simp] theorem ofCass_cass (l : Level) : (Output.ofCass l).cass = some l := rfl
@[simp] theorem ofCass_frame (l : Level) : (Output.ofCass l).frame = none := rfl
@[simp] theorem ofFrame_rdata (f : Frame) : (Output.ofFrame f).rdata = none := rfl
@[simp] theorem ofFrame_cass (f : Frame) : (Output.ofFrame f).cass = none := rfl
@[simp] theorem ofFrame_frame (f : Frame) : (Output.ofFrame f).frame = some f := rfl

end Sys2Proof.Machine
end

