-- ==== Sys2Proof/Laws/Exec.lean ====
section
/-! SUPPORT. What each operation answers, said once as an equation, and runs of operations taken one at a time. -/

namespace Sys2Proof.Machine

@[simp] theorem followEdge_eq (input line : Bool) : followEdge input line = input := by
  cases input <;> cases line <;> rfl

theorem exec_nop (s : State) : exec .nop s = s.answer s.toBlock Output.nothing := rfl
theorem exec_nopReservedC (s : State) : exec .nopReservedC s = exec .nop s := rfl
theorem exec_nopReservedD (s : State) : exec .nopReservedD s = exec .nop s := rfl
theorem exec_nopReservedE (s : State) : exec .nopReservedE s = exec .nop s := rfl
theorem exec_nopReservedF (s : State) : exec .nopReservedF s = exec .nop s := rfl

theorem exec_dpread (r0 r1 r2 : RowMask) (s : State) :
    exec (.dpread r0 r1 r2) s =
      s.answer s.toBlock (Output.ofRead (rowRead r0 r1 r2 (target (selField s.pb)))) := rfl

theorem exec_dpwrite (v : Byte) (s : State) :
    exec (.dpwrite v) s = s.answer (s.toBlock.displayWrite (target (selField s.pb)) v) Output.nothing := rfl

theorem displayWrite_digit (b : Block) (d : Fin 6) {v : Byte} (h : v.getLsbD 7 = true) :
    b.displayWrite (.digit d) v = { b with latch := b.latch.set d (patField v), cnt := b.cnt.set d PERSIST_INIT } := by
  exact if_pos h

theorem displayWrite_ignored (b : Block) (t : Target) {v : Byte} (h : v.getLsbD 7 = false) :
    b.displayWrite t v = b := by
  cases t with
  | digit d => exact if_neg (by rw [enField, h]; decide)
  | row _ => rfl
  | nothing => rfl

theorem displayWrite_row (b : Block) (r : Fin 3) (v : Byte) : b.displayWrite (.row r) v = b := rfl
theorem displayWrite_nothing (b : Block) (v : Byte) : b.displayWrite .nothing v = b := rfl

theorem exec_pbread (s : State) : exec .pbread s = s.answer s.toBlock (Output.ofRead (portBRead s.pb s.cbit)) := rfl

theorem exec_pbwrite_emits {v : Byte} (h : v.getLsbD 5 = true) (s : State) :
    exec (.pbwrite v) s =
      s.answer { s.toBlock with pb := v, clvl := v.getLsbD 7 } (Output.ofCass (Level.ofBit (v.getLsbD 7))) := by
  exact if_pos h

theorem exec_pbwrite_silent {v : Byte} (h : v.getLsbD 5 = false) (s : State) :
    exec (.pbwrite v) s = s.answer { s.toBlock with pb := v } Output.nothing := by
  exact if_neg (by rw [modeField, h]; decide)

theorem exec_stick (pos : Bool) (s : State) :
    exec (.stick pos) s =
      s.answer { s.toBlock with run := nextRun pos s.run, cbit := nextCbit pos s.run s.cbit } Output.nothing := rfl

theorem exec_ptick (s : State) : exec .ptick s = s.answer { s.toBlock with cnt := s.cnt.map decay } Output.nothing := rfl

theorem exec_vread (a : Addr) (s : State) :
    exec (.vread a) s = s.answer s.toBlock (Output.ofRead (s.vram.read (vramIndex s.cfg a))) := rfl

theorem exec_vwrite (a : Addr) (v : Byte) (s : State) :
    exec (.vwrite a v) s =
      s.answer { s.toBlock with vram := s.vram.write (vramIndex s.cfg a) v } Output.nothing := rfl

theorem exec_render (flip : Bool) (s : State) :
    exec (.render flip) s = s.answer s.toBlock (Output.ofFrame (renderFrame s.cfg flip s.vram)) := rfl

theorem exec_poll (rs st md : Bool) (s : State) :
    exec (.poll rs st md) s = s.answer { s.toBlock with rstl := rs, irql := st } Output.nothing := by
  simp [exec, execPoll]

theorem exec_reset (s : State) :
    exec .reset s = s.answer { s.toBlock with pb := 0, cnt := Digits.fill 0 } Output.nothing := rfl

/-- The index the block sees is one of its bytes. -/
theorem vramIndex_lt (c : Config) (a : Addr) : vramIndex c a < c.vramSize := Nat.mod_lt _ (Nat.two_pow_pos _)

/-- A well-formed address is the index itself: "no address bit is dropped" (30_encoding.md R51). -/
theorem vramIndex_of_wf {c : Config} {a : Addr} (h : a.toNat < c.vramSize) : vramIndex c a = a.toNat :=
  Nat.mod_eq_of_lt h

@[simp] theorem runOps_nil (s : State) : runOps [] s = .next s := rfl

theorem runOps_cons_next {i : Instr} {is : List Instr} {s t : State} (h : exec i s = .next t) :
    runOps (i :: is) s = runOps is t := by
  simp [runOps, h]

theorem outputsOf_cons_next {i : Instr} {is : List Instr} {s t : State} (h : exec i s = .next t) :
    outputsOf (i :: is) s = t.out :: outputsOf is t := by
  simp [outputsOf, h]

theorem runOps_append_next {is js : List Instr} {s t : State} (h : runOps is s = .next t) :
    runOps (is ++ js) s = runOps js t := by
  induction is generalizing s with
  | nil => cases h; rfl
  | cons i is ih =>
    simp only [runOps, List.cons_append] at h ⊢
    cases hi : exec i s with
    | next u => rw [hi] at h; exact ih h
    | fault r => exact r.rec
    | refused r => rw [hi] at h; cases h

end Sys2Proof.Machine
end

