-- ==== Sys2Proof/Laws/Memory.lean ====
section
/-! SUPPORT. VideoRAM: reading after a write, the canonical form is kept, and canonical memories that read alike are
equal. -/

namespace Sys2Proof.Machine

@[simp] theorem read_nil (a : Nat) : Memory.read [] a = Memory.unlisted := rfl

theorem read_cons (k : Nat) (v : Byte) (m : Memory) (a : Nat) :
    Memory.read ((k, v) :: m) a = if k = a then v else Memory.read m a := rfl

theorem read_of_absent {m : Memory} {a : Nat} (h : ∀ cell ∈ m, cell.1 ≠ a) : m.read a = Memory.unlisted := by
  induction m with
  | nil => rfl
  | cons cell m ih =>
    rw [read_cons, if_neg (h cell List.mem_cons_self)]
    exact ih fun c hc => h c (List.mem_cons_of_mem _ hc)

theorem mem_dropAddr {m : Memory} {a : Nat} {cell : Host.Cell} : cell ∈ m.dropAddr a ↔ cell ∈ m ∧ cell.1 ≠ a := by
  simp [Memory.dropAddr, List.mem_filter]

theorem read_dropAddr_same (m : Memory) (a : Nat) : (m.dropAddr a).read a = Memory.unlisted :=
  read_of_absent fun _ hc => (mem_dropAddr.1 hc).2

theorem read_dropAddr_other (m : Memory) {a b : Nat} (h : b ≠ a) : (m.dropAddr a).read b = m.read b := by
  induction m with
  | nil => rfl
  | cons cell m ih =>
    obtain ⟨k, v⟩ := cell
    by_cases hk : k = a
    · have hkb : k ≠ b := fun e => h (e.symm.trans hk)
      have he : Memory.dropAddr ((k, v) :: m) a = Memory.dropAddr m a := by simp [Memory.dropAddr, hk]
      rw [he, ih, read_cons, if_neg hkb]
    · have he : Memory.dropAddr ((k, v) :: m) a = (k, v) :: Memory.dropAddr m a := by simp [Memory.dropAddr, hk]
      rw [he, read_cons, read_cons, ih]

theorem read_place (m : Memory) (a : Nat) (v : Byte) (h : ∀ cell ∈ m, cell.1 ≠ a) (b : Nat) :
    (m.place a v).read b = if a = b then v else m.read b := by
  induction m with
  | nil => rfl
  | cons cell m ih =>
    obtain ⟨k, w⟩ := cell
    have hka : k ≠ a := h (k, w) List.mem_cons_self
    have ih' := ih fun c hc => h c (List.mem_cons_of_mem _ hc)
    unfold Memory.place
    split
    · rfl
    · rw [read_cons, ih', read_cons]
      by_cases hab : a = b
      · rw [if_neg (fun e => hka (e.trans hab.symm)), if_pos hab]
        simp [hab]
      · simp [hab]

theorem mem_place {m : Memory} {a : Nat} {v : Byte} {cell : Host.Cell} :
    cell ∈ m.place a v ↔ cell = (a, v) ∨ cell ∈ m := by
  induction m with
  | nil => simp [Memory.place]
  | cons c m ih =>
    unfold Memory.place
    split
    · simp
    · simp only [List.mem_cons, ih]
      tauto

/-- The byte written is read back: "`VWRITE a, v` then `VREAD a` returns `v`" at the buffer. -/
@[simp] theorem read_write_same (m : Memory) (a : Nat) (v : Byte) : (m.write a v).read a = v := by
  unfold Memory.write
  split
  · next hv => rw [read_dropAddr_same, hv]
  · rw [read_place _ _ _ (fun c hc => (mem_dropAddr.1 hc).2), if_pos rfl]

/-- A write leaves every other address alone. -/
theorem read_write_other (m : Memory) {a b : Nat} (v : Byte) (h : b ≠ a) : (m.write a v).read b = m.read b := by
  unfold Memory.write
  split
  · exact read_dropAddr_other m h
  · rw [read_place _ _ _ (fun c hc => (mem_dropAddr.1 hc).2), if_neg (Ne.symm h), read_dropAddr_other m h]

theorem place_sorted {m : Memory} {a : Nat} {v : Byte} (hm : m.Pairwise fun x y => x.1 < y.1)
    (ha : ∀ cell ∈ m, cell.1 ≠ a) : (m.place a v).Pairwise fun x y => x.1 < y.1 := by
  induction m with
  | nil => simp [Memory.place]
  | cons c m ih =>
    rw [List.pairwise_cons] at hm
    have hca : c.1 ≠ a := ha c List.mem_cons_self
    unfold Memory.place
    split
    · next hlt =>
      rw [List.pairwise_cons, List.pairwise_cons]
      refine ⟨?_, hm⟩
      rintro d (_ | ⟨_, hd⟩)
      · exact hlt
      · exact lt_trans hlt (hm.1 d hd)
    · next hle =>
      rw [List.pairwise_cons]
      refine ⟨?_, ih hm.2 fun d hd => ha d (List.mem_cons_of_mem _ hd)⟩
      intro d hd
      rcases mem_place.1 hd with rfl | hd
      · have : c.1 ≤ a := Nat.le_of_not_lt hle
        exact Nat.lt_of_le_of_ne this hca
      · exact hm.1 d hd

/-- A write keeps the canonical form. -/
theorem write_wf {m : Memory} (hm : m.wf) (a : Nat) (v : Byte) : (m.write a v).wf := by
  have hsorted : (m.dropAddr a).Pairwise fun x y => x.1 < y.1 := hm.1.filter _
  have hlisted : ∀ cell ∈ m.dropAddr a, cell.2 ≠ Memory.unlisted := fun c hc => hm.2 c (mem_dropAddr.1 hc).1
  unfold Memory.write
  split
  · exact ⟨hsorted, hlisted⟩
  · next hv =>
    refine ⟨place_sorted hsorted fun c hc => (mem_dropAddr.1 hc).2, fun c hc => ?_⟩
    rcases mem_place.1 hc with rfl | hc
    · exact hv
    · exact hlisted c hc

/-- A write to one of the bytes of the buffer lists no address outside it. -/
theorem write_within {m : Memory} {size : Nat} (hm : m.within size) {a : Nat} (ha : a < size) (v : Byte) :
    (m.write a v).within size := by
  unfold Memory.write
  split
  · exact fun c hc => hm c (mem_dropAddr.1 hc).1
  · intro c hc
    rcases mem_place.1 hc with rfl | hc
    · exact ha
    · exact hm c (mem_dropAddr.1 hc).1

theorem read_of_mem {m : Memory} (hm : m.Pairwise fun x y => x.1 < y.1) {cell : Host.Cell} (hc : cell ∈ m) :
    m.read cell.1 = cell.2 := by
  induction m with
  | nil => cases hc
  | cons c m ih =>
    rw [List.pairwise_cons] at hm
    obtain ⟨k, v⟩ := c
    rw [read_cons]
    rcases List.mem_cons.1 hc with rfl | hc
    · simp
    · rw [if_neg (Nat.ne_of_lt (hm.1 cell hc)), ih hm.2 hc]

/-- Two canonical memories that read alike at every address are equal. -/
theorem memory_eq_of_read {m n : Memory} (hm : m.wf) (hn : n.wf) (h : ∀ a, m.read a = n.read a) : m = n := by
  have sub : ∀ {x y : Memory}, x.wf → y.wf → (∀ a, x.read a = y.read a) → x ⊆ y := by
    intro x y hx hy hxy cell hc
    have hr : y.read cell.1 = cell.2 := by rw [← hxy, read_of_mem hx.1 hc]
    by_contra hnot
    by_cases hex : ∃ d ∈ y, d.1 = cell.1
    · obtain ⟨d, hd, hkey⟩ := hex
      have : d.2 = cell.2 := by rw [← hr, ← hkey, read_of_mem hy.1 hd]
      exact hnot (Prod.ext hkey this ▸ hd)
    · have : y.read cell.1 = Memory.unlisted := read_of_absent fun d hd e => hex ⟨d, hd, e⟩
      exact hx.2 cell hc (hr.symm.trans this)
  have nodup : ∀ {x : Memory}, x.wf → x.Nodup := fun hx =>
    hx.1.imp (fun {c d} (hlt : c.1 < d.1) (e : c = d) => Nat.lt_irrefl c.1 (by rwa [← e] at hlt))
  have perm : m.Perm n :=
    (List.perm_ext_iff_of_nodup (nodup hm) (nodup hn)).2 fun c =>
      ⟨fun hc => sub hm hn h hc, fun hc => sub hn hm (fun a => (h a).symm) hc⟩
  exact perm.eq_of_pairwise (fun _ _ _ _ h1 h2 => absurd (lt_trans h1 h2) (Nat.lt_irrefl _)) hm.1 hn.1

/-- Writes to two addresses of a canonical memory commute. -/
theorem write_comm {m : Memory} (hm : m.wf) {a b : Nat} (h : a ≠ b) (v w : Byte) :
    (m.write a v).write b w = (m.write b w).write a v := by
  refine memory_eq_of_read (write_wf (write_wf hm _ _) _ _) (write_wf (write_wf hm _ _) _ _) fun x => ?_
  by_cases hb : x = b
  · rw [hb, read_write_same, read_write_other _ _ (Ne.symm h), read_write_same]
  · rw [read_write_other _ _ hb]
    by_cases ha : x = a
    · rw [ha, read_write_same, read_write_same]
    · rw [read_write_other _ _ ha, read_write_other _ _ ha, read_write_other _ _ hb]

/-- Of two writes to one address of a canonical memory the last stands. -/
theorem write_write_same {m : Memory} (hm : m.wf) (a : Nat) (v w : Byte) :
    (m.write a v).write a w = m.write a w := by
  refine memory_eq_of_read (write_wf (write_wf hm _ _) _ _) (write_wf hm _ _) fun x => ?_
  by_cases ha : x = a
  · rw [ha, read_write_same, read_write_same]
  · rw [read_write_other _ _ ha, read_write_other _ _ ha, read_write_other _ _ ha]

end Sys2Proof.Machine
end

