-- ==== Sys2Proof/Laws/PerInstr.lean ====
section
/-! SUPPORT. A statement about every operation as syntax, one lemma per constructor: the opcode field of its request word
is the code of its row (30_encoding.md R52). -/

namespace Sys2Proof.Laws

/-- The 4-bit code of an operation (30_encoding.md R52). -/
def opcodeOf : Instr → BitVec 4
  | .nop => 0x0
  | .dpread _ _ _ => 0x1
  | .dpwrite _ => 0x2
  | .pbread => 0x3
  | .pbwrite _ => 0x4
  | .stick _ => 0x5
  | .ptick => 0x6
  | .vread _ => 0x7
  | .vwrite _ _ => 0x8
  | .render _ => 0x9
  | .poll _ _ _ => 0xA
  | .reset => 0xB
  | .nopReservedC => 0xC
  | .nopReservedD => 0xD
  | .nopReservedE => 0xE
  | .nopReservedF => 0xF

/-- The request word of `i` carries the code of `i`. -/
def EncodedOpcode.Statement (i : Instr) : Prop := opField (encode i) = opcodeOf i

theorem EncodedOpcode.nop : EncodedOpcode.Statement .nop := opField_requestWord _ _
theorem EncodedOpcode.dpread (r0 r1 r2 : RowMask) : EncodedOpcode.Statement (.dpread r0 r1 r2) := opField_requestWord _ _
theorem EncodedOpcode.dpwrite (v : Byte) : EncodedOpcode.Statement (.dpwrite v) := opField_requestWord _ _
theorem EncodedOpcode.pbread : EncodedOpcode.Statement .pbread := opField_requestWord _ _
theorem EncodedOpcode.pbwrite (v : Byte) : EncodedOpcode.Statement (.pbwrite v) := opField_requestWord _ _
theorem EncodedOpcode.stick (p : Bool) : EncodedOpcode.Statement (.stick p) := opField_requestWord _ _
theorem EncodedOpcode.ptick : EncodedOpcode.Statement .ptick := opField_requestWord _ _
theorem EncodedOpcode.vread (a : Addr) : EncodedOpcode.Statement (.vread a) := opField_requestWord _ _
theorem EncodedOpcode.vwrite (a : Addr) (v : Byte) : EncodedOpcode.Statement (.vwrite a v) := opField_requestWord _ _
theorem EncodedOpcode.render (f : Bool) : EncodedOpcode.Statement (.render f) := opField_requestWord _ _
theorem EncodedOpcode.poll (rs st md : Bool) : EncodedOpcode.Statement (.poll rs st md) := opField_requestWord _ _
theorem EncodedOpcode.reset : EncodedOpcode.Statement .reset := opField_requestWord _ _
theorem EncodedOpcode.nopReservedC : EncodedOpcode.Statement .nopReservedC := opField_requestWord _ _
theorem EncodedOpcode.nopReservedD : EncodedOpcode.Statement .nopReservedD := opField_requestWord _ _
theorem EncodedOpcode.nopReservedE : EncodedOpcode.Statement .nopReservedE := opField_requestWord _ _
theorem EncodedOpcode.nopReservedF : EncodedOpcode.Statement .nopReservedF := opField_requestWord _ _

end Sys2Proof.Laws
end

