-- ==== Sys2Proof/Tests/Slice0.lean ====
section
/-! SUPPORT. Tests of single steps against 95_test_vectors.md, decode tests on words written out from the formats, the
smoke test of well-formedness, and a witness for the hypotheses of every statement. -/

namespace Sys2Proof.Tests

open Sys2Proof.Machine

/-- The state an operation answers. -/
def after (i : Instr) (s : State) : Option State :=
  match exec i s with
  | .next t => some t
  | .fault _ => none
  | .refused _ => none

/-- The test start state `S0` of 95_test_vectors.md with `PB` given. -/
def withPb (v : Byte) : State := { State.reset with pb := v }

/-- The start of 95_test_vectors.md 2.3 with `PB` given. -/
def muxStart (v : Byte) : State :=
  { State.reset with pb := v, cnt := ⟨0, 5, 0, 0, 0, 15⟩, latch := ⟨0, 0x11, 0, 0, 0, 0x22⟩ }

/-- `S0` with `RUN` and `CBIT` given (95_test_vectors.md 2.5). -/
def tapeStart (n : Nat) (c : Bool) : State := { State.reset with run := n, cbit := c }

/-- `S0` with VideoRAM given. -/
def withVram (m : Memory) : State := { State.reset with vram := m }

/-- The block of 95_test_vectors.md 2.11. -/
def busyBlock : Block :=
  { pb := 0xB2, cnt := ⟨15, 3, 0, 0, 9, 1⟩, latch := ⟨1, 2, 3, 4, 5, 6⟩, run := 5, cbit := true, vram := [(7, 0x77)],
    rstl := true, irql := true, clvl := true }

/-! ## Well-formedness (30_encoding.md R51, 00_scope.md R5) -/

/-- A block of 256 bytes. -/
def small : Config := { vaW := 8, rowBytes := 2, rows := 3 }

theorem test_wf_refuses_vread_address : Instr.wf small (.vread 0x100) = false := by decide
theorem test_wf_refuses_vwrite_address : Instr.wf small (.vwrite 0x100 0) = false := by decide
theorem test_wf_accepts_last_address : Instr.wf small (.vread 0xFF) = true := by decide
theorem test_config_refuses_no_address_bits : ¬ Config.wf { vaW := 0, rowBytes := 1, rows := 1 } := by decide
theorem test_config_refuses_wide_address : ¬ Config.wf { vaW := 17, rowBytes := 1, rows := 1 } := by decide
theorem test_config_refuses_empty_row : ¬ Config.wf { vaW := 8, rowBytes := 0, rows := 1 } := by decide
theorem test_config_refuses_no_rows : ¬ Config.wf { vaW := 8, rowBytes := 1, rows := 0 } := by decide
theorem test_config_refuses_large_frame : ¬ Config.wf { vaW := 2, rowBytes := 5, rows := 1 } := by decide
theorem test_config_accepts_full_frame : Config.wf { vaW := 2, rowBytes := 2, rows := 2 } := by decide

/-! ## Decoding: each word written out bit by bit from R51's formats and R52's codes -/

theorem test_decode_nop : decode 0b00000000000000000000000000000000 = .nop := by decide
theorem test_decode_dpread : decode 0b00010000011111110010101001010101 = .dpread 0x55 0x2A 0x7F := by decide
theorem test_decode_dpwrite : decode 0b00100000000000000000000010000111 = .dpwrite 0x87 := by decide
theorem test_decode_pbread : decode 0b00110000000000000000000000000000 = .pbread := by decide
theorem test_decode_pbwrite : decode 0b01000000000000000000000010100000 = .pbwrite 0xA0 := by decide
theorem test_decode_stick : decode 0b01010000000000000000000000000001 = .stick true := by decide
theorem test_decode_ptick : decode 0b01100000000000000000000000000000 = .ptick := by decide
theorem test_decode_vread : decode 0b01110000000000010010001100000000 = .vread 0x0123 := by decide
theorem test_decode_vwrite : decode 0b10000000000000010010001110100101 = .vwrite 0x0123 0xA5 := by decide
theorem test_decode_render : decode 0b10010000000000000000000000000001 = .render true := by decide
theorem test_decode_poll : decode 0b10100000000000000000000000000101 = .poll true false true := by decide
theorem test_decode_reset : decode 0b10110000000000000000000000000000 = .reset := by decide
theorem test_decode_reserved_c : decode 0b11000000000100100011010001010110 = .nopReservedC := by decide
theorem test_decode_reserved_d : decode 0b11010000000000000000000000000000 = .nopReservedD := by decide
theorem test_decode_reserved_e : decode 0b11100000000000000000000000000000 = .nopReservedE := by decide
theorem test_decode_reserved_f : decode 0b11110000000000000000000000000000 = .nopReservedF := by decide
/-- 95_test_vectors.md 2.8: the word of `VWRITE 0xFFFF, 0x01`. -/
theorem test_encode_vwrite : encode (.vwrite 0xFFFF 0x01) = 0x80FFFF01 := by decide
/-- 95_test_vectors.md 2.2: the word of `DPREAD 0x7F, 0x7F, 0x01`. -/
theorem test_encode_dpread : encode (.dpread 0x7F 0x7F 0x01) = 0x10017F7F := by decide
/-- 95_test_vectors.md P5: the word of `POLL 1, 0, 1`. -/
theorem test_encode_poll : encode (.poll true false true) = 0xA0000005 := by decide
theorem test_table_word_too_long : decodeTableWord 33 0 = none := by decide

/-! ## One step of each operation -/

/-- 30_encoding.md R54. -/
theorem test_nop_changes_nothing : after .nop (muxStart 0xB2) = some (muxStart 0xB2) := by decide
theorem test_reserved_c_is_nop : after .nopReservedC (muxStart 0xB2) = some (muxStart 0xB2) := by decide
theorem test_reserved_d_is_nop : after .nopReservedD (muxStart 0xB2) = some (muxStart 0xB2) := by decide
theorem test_reserved_e_is_nop : after .nopReservedE (muxStart 0xB2) = some (muxStart 0xB2) := by decide
theorem test_reserved_f_is_nop : after .nopReservedF (muxStart 0xB2) = some (muxStart 0xB2) := by decide

/-- 95_test_vectors.md 2.2: `PB = 0xA1` reads row 0; only `SEL` matters. -/
theorem test_dpread_row0 : (after (.dpread 0x55 0x2A 0x7F) (withPb 0xA1)).map (·.out.rdata) = some (some 0x55) := by
  decide
/-- 95_test_vectors.md 2.2: `SEL` = 3 returns 0xFF. -/
theorem test_dpread_gap : (after (.dpread 0x55 0x2A 0x7F) (withPb 0x06)).map (·.out.rdata) = some (some 0xFF) := by decide

/-- 95_test_vectors.md 2.3: `DPWRITE 0xC9` to digit 1. -/
theorem test_dpwrite_digit1 : after (.dpwrite 0xC9) (muxStart 0x0A) =
    some { muxStart 0x0A with cnt := ⟨0, 15, 0, 0, 0, 15⟩, latch := ⟨0, 0x49, 0, 0, 0, 0x22⟩ } := by decide
/-- 95_test_vectors.md 2.3: `SEL` = 10 selects nothing. -/
theorem test_dpwrite_nothing_selected : after (.dpwrite 0xFF) (muxStart 0x14) = some (muxStart 0x14) := by decide

/-- 95_test_vectors.md 2.6: `PB = 0x9E`, `CBIT = 1`. -/
theorem test_pbread_short_run :
    (after .pbread { tapeStart 0 true with pb := 0x9E }).map (·.out.rdata) = some (some 0x7F) := by decide
/-- 95_test_vectors.md 2.6: write mode reads 0xFF. -/
theorem test_pbread_write_mode :
    (after .pbread { tapeStart 0 true with pb := 0x20 }).map (·.out.rdata) = some (some 0xFF) := by decide

/-- 95_test_vectors.md 2.4: `PBWRITE 0xA8` emits -1.0. -/
theorem test_pbwrite_emits : (after (.pbwrite 0xA8) (withPb 0xA0)).map (fun t => (t.pb, t.clvl, t.out.cass)) =
    some (0xA8, true, some .minus) := by decide
/-- 95_test_vectors.md 2.4: `PBWRITE 0x41` after `CLVL = 1`. -/
theorem test_pbwrite_silent :
    (after (.pbwrite 0x41) { withPb 0xFF with clvl := true }).map (fun t => (t.pb, t.clvl, t.out.cass)) =
    some (0x41, true, none) := by decide

/-- 95_test_vectors.md 2.5: a run of 7 ends. -/
theorem test_stick_run_of_7 : (after (.stick false) (tapeStart 7 false)).map (fun t => (t.run, t.cbit)) =
    some (0, true) := by decide
/-- 95_test_vectors.md 2.5: a run of 8 ends. -/
theorem test_stick_run_of_8 : (after (.stick false) (tapeStart 8 true)).map (fun t => (t.run, t.cbit)) =
    some (0, false) := by decide

/-- 95_test_vectors.md 2.7, first row. -/
theorem test_ptick : (after .ptick { State.reset with cnt := ⟨15, 1, 0, 7, 0, 0⟩ }).map (·.cnt) =
    some ⟨14, 0, 0, 6, 0, 0⟩ := by decide
/-- 95_test_vectors.md 2.7, first row: `SEG` after the tick. -/
theorem test_ptick_seg :
    (after .ptick { State.reset with cnt := ⟨15, 1, 0, 7, 0, 0⟩, latch := ⟨0x07, 0x5B, 0x3F, 0x66, 0, 0⟩ }).map
      (·.pinsOut.seg) = some ⟨0x07, 0, 0, 0x66, 0, 0⟩ := by decide

/-- 95_test_vectors.md 2.8: the highest address. -/
theorem test_vread_top : (after (.vread 0xFFFF) (withVram [(0, 0xA5), (0xFFFF, 1)])).map (·.out.rdata) =
    some (some 0x01) := by decide
/-- 95_test_vectors.md 2.8: no mirror of 0x8000 at 0. -/
theorem test_vread_no_mirror : (after (.vread 0) (withVram [(0, 0xA5), (0x8000, 0xFF)])).map (·.out.rdata) =
    some (some 0xA5) := by decide
/-- 95_test_vectors.md 2.8: `VWRITE 0x0001, 0x5A`. -/
theorem test_vwrite : (after (.vwrite 1 0x5A) (withVram [(0, 0xA5), (0xFFFF, 1)])).map (·.vram) =
    some [(0, 0xA5), (1, 0x5A), (0xFFFF, 1)] := by decide
/-- 95_test_vectors.md 2.8: `VWRITE 0x0000, 0x00`. -/
theorem test_vwrite_zero : (after (.vwrite 0 0x00) (withVram [(0, 0xA5), (1, 0x5A)])).map (·.vram) =
    some [(1, 0x5A)] := by decide

/-- 95_test_vectors.md 2.9, `FLIP` = 1: the lines, read as numbers. -/
theorem test_render_flipped :
    (after (.render true) (withVram [(0, 0x5A), (1, 0x0F), (2, 0x80), (3, 0x01)])).map
      (fun t => t.out.frame.map (fun f => f.lines.map (fun l => l.foldl (fun n b => 2 * n + b.toNat) 0))) =
    some (some [0x8001, 0x5A0F]) := by decide
/-- 95_test_vectors.md 2.9, `FLIP` = 0: `pix(12,0) = 1`, `pix(0,0) = 0`. -/
theorem test_render_pixels :
    (after (.render false) (withVram [(0, 0x5A), (1, 0x0F), (2, 0x80), (3, 0x01)])).map
      (fun t => t.out.frame.map (fun f => (f.pix 12 0, f.pix 0 0, f.pix 16 0))) =
    some (some (some true, some false, none)) := by decide

/-- 44_lines.md R110, worked example: `POLL 1, 0, 0`. -/
theorem test_poll : (after (.poll true false false) { State.reset with irql := true }).map (fun t => (t.rstl, t.irql)) =
    some (true, false) := by decide
/-- 44_lines.md R110, worked example: `POLL 0, 1, 1` changes nothing. -/
theorem test_poll_run_mode_ignored :
    after (.poll false true true) { State.reset with irql := true } = some { State.reset with irql := true } := by decide

/-- 95_test_vectors.md 2.11. -/
theorem test_reset : (after .reset { State.reset with toBlock := busyBlock }).map (·.toBlock) =
    some { busyBlock with pb := 0x00, cnt := ⟨0, 0, 0, 0, 0, 0⟩ } := by decide

/-- A step from power-on with one request placed performs it: V-4, `PBWRITE 0x20`. -/
theorem test_step_performs_request : (match step (State.reset.withFetchWord 32 0x40000020) with
    | .next t => some (t.pb, t.out.cass, t.pending)
    | .fault _ => none
    | .refused _ => none) = some (0x20, some .plus, []) := by decide

/-! ## The signals, the pseudo-operations and the trace syntax -/

/-- No strobe. -/
def quietPins : PinsIn :=
  { dpRd := false, dpWr := false, pbRd := false, pbWr := false, vRd := false, vWr := false, wdata := 0x87, va := 0,
    row0 := 0, row1 := 0, row2 := 0, rsIn := false, stIn := false, mdIn := false, poll := false, sampTick := false,
    sampPos := false, persTick := false, frame := false, flip := false, mreset := false }

theorem test_pins_two_strobes : (match stepPins { quietPins with dpWr := true, persTick := true } State.reset with
    | .next _ => false
    | .fault _ => false
    | .refused r => decide (r = .overlappingStrobes)) = true := by decide

/-- 95_test_vectors.md 2.13: `SHOW 3, 0x6D`. -/
theorem test_pseudo_show : (expandPseudo (.showDigit 3 0x6D)).map encode = [0x4000000E, 0x200000ED] := by decide
/-- 95_test_vectors.md 2.13: `REPEAT 3: PTICK`. -/
theorem test_pseudo_repeat : (expandPseudo (.rep 3 (.op .ptick))).map encode =
    [0x60000000, 0x60000000, 0x60000000] := by decide
/-- 30_encoding.md R61: a line with a comment. -/
theorem test_trace_reads_line :
    readLine ['S', 'T', 'I', 'C', 'K', ' ', '1', ' ', ';', 'x'] = some ⟨.STICK, [1], none⟩ := by decide
theorem test_trace_reads_result :
    readLine ['P', 'B', 'R', 'E', 'A', 'D', ' ', '-', '>', ' ', '0', 'x', '7', 'F'] =
      some ⟨.PBREAD, [], some (.number 0x7F)⟩ := by decide
theorem test_trace_refuses_missing_operand : assemble .DPREAD [0x55, 42] = none := by decide
theorem test_trace_refuses_wide_mask : assemble .DPREAD [0x80, 0, 0] = none := by decide
theorem test_trace_reads_repeat :
    readPseudo 1 ['R', 'E', 'P', 'E', 'A', 'T', ' ', '3', ':', ' ', 'P', 'T', 'I', 'C', 'K'] =
      some (.rep 3 (.op .ptick)) := by decide

/-- 70_reset_and_hazards.md R160: the bounds of the tone arithmetic. -/
theorem test_tone_rates : separatesTones 38399 = false ∧ separatesTones 38400 = true ∧ separatesTones 59199 = true ∧
    separatesTones 59200 = false := by decide

/-- G3: an amplitude of zero is non-positive. -/
theorem test_zero_sample_is_nonpositive : samplePos 0 = false := by decide

/-! ## Witnesses: for each statement with hypotheses, values that meet them all, at the ends of their ranges -/

/-- A list without a DPWRITE writes no digit. -/
theorem noWriteTo_of_no_dpwrite (d : Fin 6) (is : List Instr) (h : ∀ v, .dpwrite v ∉ is) (s : State) :
    NoWriteTo d is s := by
  induction is generalizing s with
  | nil => exact trivial
  | cons i is ih =>
    refine ⟨?_, fun t _ => ih (fun v hv => h v (List.mem_cons_of_mem _ hv)) t⟩
    rintro ⟨v, rfl, _⟩
    exact h v List.mem_cons_self

theorem witness_StepPerformsTheNextRequest :
    (State.reset.withFetchWord 32 0x60000000).pending = 0x60000000 :: [] ∧ State.reset.pending = [] := by decide

theorem witness_UnusedBitsAreIgnored : ((0x20000087 : Request) ^^^ 0x2FFFFF87) &&& usedBits 0x20000087 = 0 := by decide

theorem witness_NopAndReservedCodesDoNothing :
    (0x0FFFFFFF : Request).toNat / 2 ^ 28 = 0 ∧ 0xC ≤ (0xC0000000 : Request).toNat / 2 ^ 28 ∧
    0xC ≤ (0xFFFFFFFF : Request).toNat / 2 ^ 28 := by decide

theorem witness_DpwriteSetsSelectedDigit :
    ((0x80 : Byte).getLsbD 7 = true ∧ (withPb 0x08).pb.toNat / 2 % 16 = (0 : Fin 6).val + 4) ∧
    ((0xFF : Byte).getLsbD 7 = true ∧ (withPb 0x12).pb.toNat / 2 % 16 = (5 : Fin 6).val + 4) ∧
    (0x7F : Byte).getLsbD 7 = false := by decide

theorem witness_PowerOnIsDrawThenReset : ({ busyBlock with pb := 0, cnt := ⟨0, 0, 0, 0, 0, 0⟩ } : Block).pb = 0x00 ∧
    ∀ d, ({ busyBlock with pb := 0, cnt := ⟨0, 0, 0, 0, 0, 0⟩ } : Block).cnt.get d = 0 := by decide

theorem witness_DefinedNoOpsChangeNothing :
    (3 ≤ (withPb 0x06).pb.toNat / 2 % 16 ∧ 3 ≤ (withPb 0x1E).pb.toNat / 2 % 16) ∧
    ((withPb 0x06).pb.toNat / 2 % 16 ≤ 3 ∧ 10 ≤ (withPb 0x14).pb.toNat / 2 % 16) ∧
    (0x7F : Byte).getLsbD 7 = false ∧ (0xDF : Byte).getLsbD 5 = false ∧ (tapeStart 0 true).run = 0 ∧
    (∀ d, State.reset.cnt.get d = 0) ∧ 0xC ≤ (0xC0123456 : Request).toNat / 2 ^ 28 := by decide

theorem witness_OnlyItsWritersChangeAnItem :
    (after (.pbwrite 0xA0) State.reset).map (fun t => (t.pb != 0, t.clvl)) = some (true, true) ∧
    (after (.dpwrite 0x81) (withPb 0x08)).map (fun t => (t.cnt.get 0 != 0, t.latch.get 0 != 0)) = some (true, true) ∧
    (after (.stick false) (tapeStart 1 false)).map (fun t => (t.run != 1, t.cbit)) = some (true, true) ∧
    (after (.vwrite 0 1) State.reset).map (fun t => t.vram != []) = some true ∧
    (after (.poll true true false) State.reset).map (fun t => (t.rstl, t.irql)) = some (true, true) := by decide

theorem witness_NineItemsAreTheWholeState :
    (State.reset.putRequest 0).toBlock = State.reset.toBlock ∧ (State.reset.putRequest 0).cfg = State.reset.cfg ∧
    State.reset.putRequest 0 ≠ State.reset := by decide

theorem witness_StepKeepsInvariant :
    (State.reset.withFetchWord 32 0x80FFFF01).Inv ∧ (match step (State.reset.withFetchWord 32 0x80FFFF01) with
      | .next t => decide (t.vram = [(0xFFFF, 1)])
      | .fault _ => false
      | .refused _ => false) = true := by decide

theorem witness_PowerOnMeetsInvariant :
    small.wf ∧ busyBlock.vram.wf ∧ busyBlock.vram.within small.vramSize := by decide

theorem witness_EveryInterleavingKeepsInvariant :
    State.reset.Inv ∧ ∃ t, Reaches State.reset t ∧ t.vram = [(0xFFFF, 1)] ∧ t.run = 1 :=
  ⟨by decide, _, .event (.event .here ⟨.vwrite 0xFFFF 1, rfl⟩) ⟨.stick true, rfl⟩, by decide, by decide⟩

theorem witness_DigitIsBlankAtCounterZero :
    ({ State.reset with cnt := ⟨1, 2, 0, 0, 0, 15⟩ } : State).cnt.get 0 = 1 ∧
    2 ≤ (({ State.reset with cnt := ⟨1, 2, 0, 0, 0, 15⟩ } : State).cnt.get 1).toNat := by decide

theorem witness_CountersNeverWrap :
    (after .ptick { State.reset with cnt := ⟨1, 15, 0, 0, 0, 0⟩ }).map (·.cnt) = some ⟨0, 14, 0, 0, 0, 0⟩ ∧
    (after (.dpwrite 0x80) (withPb 0x12)).map (·.cnt) = some ⟨0, 0, 0, 0, 0, 15⟩ ∧
    State.reset.cnt.get 0 = 0 := by decide

theorem witness_DigitLifetimeIsFifteenTicks :
    (0x87 : Byte).getLsbD 7 = true ∧ (withPb 0x08).pb.toNat / 2 % 16 = (0 : Fin 6).val + 4 ∧
    (∀ t, NoWriteTo 0 (List.replicate 14 .ptick) t) ∧ .reset ∉ List.replicate 14 Instr.ptick ∧
    (List.replicate 14 Instr.ptick).count .ptick ≤ 14 ∧
    (∀ t, NoWriteTo 0 (List.replicate 15 .ptick) t) ∧ .reset ∉ List.replicate 15 Instr.ptick ∧
    15 ≤ (List.replicate 15 Instr.ptick).count .ptick :=
  ⟨by decide, by decide, noWriteTo_of_no_dpwrite 0 _ (by simp), by decide, by decide,
    noWriteTo_of_no_dpwrite 0 _ (by simp), by decide, by decide⟩

theorem witness_WritingHex80BlanksADigit :
    (withPb 0x12).pb.toNat / 2 % 16 = (5 : Fin 6).val + 4 ∧ (0x00 : Byte).getLsbD 7 = false := by decide

theorem witness_LatchBehindZeroCounterIsHidden :
    SameButDarkLatch { State.reset with cnt := ⟨0, 1, 0, 0, 0, 0⟩, latch := ⟨1, 5, 0, 0, 0, 0⟩ }
      { State.reset with cnt := ⟨0, 1, 0, 0, 0, 0⟩, latch := ⟨2, 5, 0, 0, 0, 9⟩ } := by
  unfold SameButDarkLatch
  decide

theorem witness_UnwrittenDigitGoesBlankForEver :
    FairSchedule (fun n => if n % 2 = 0 then .stick true else .ptick) ∧
    ∀ n, NoWriteTo 0 (firstOps (fun n => if n % 2 = 0 then .stick true else .ptick) n) State.reset := by
  refine ⟨fun n => ⟨⟨2 * n, true, by omega, ?_⟩, 2 * n + 1, by omega, ?_⟩, fun n => noWriteTo_of_no_dpwrite 0 _ ?_ _⟩
  · exact if_pos (by omega)
  · exact if_neg (by omega)
  · intro v hv
    obtain ⟨k, _, hk⟩ := List.mem_map.1 hv
    revert hk
    split <;> intro hk <;> cases hk

theorem witness_LatestPortBWriteRoutesAccesses :
    (∀ i ∈ [Instr.ptick, .dpread 0 0 0, .stick true], i.mnemonic ≠ .PBWRITE ∧ i.mnemonic ≠ .RESET) ∧
    (0x08 : Byte).toNat / 2 % 16 = (0 : Fin 6).val + 4 ∧ (0x12 : Byte).toNat / 2 % 16 = (5 : Fin 6).val + 4 ∧
    (0x06 : Byte).toNat / 2 % 16 = 3 ∧ (0xFF : Byte).toNat / 2 % 16 = 15 ∧ (0x04 : Byte).toNat / 2 % 16 = 2 ∧
    (0x02 : Byte).toNat / 2 % 16 = 1 ∧ (0x20 : Byte).toNat / 2 % 16 = 0 ∧
    (0x80 : Byte).getLsbD 7 = true ∧ (Instr.dpwrite 0).mnemonic = .DPWRITE ∧
    (0xE9 : Byte).toNat / 2 % 16 = (withPb 0x08).pb.toNat / 2 % 16 ∧
    (after .reset (withPb 0x08)).map (fun t => t.pb != 0x08) = some true := by decide

theorem witness_DecoderProperties :
    (∀ i ∈ [Instr.stick true, .ptick, .stick true], i ≠ .stick false) ∧
    .stick true ∈ [Instr.stick true, .ptick, .stick true] ∧
    (after (.stick false) (tapeStart 7 false)).map (·.cbit) = some true ∧ (tapeStart 7 false).run ≠ 0 ∧
    (tapeStart 8 true).run ≠ 0 ∧ (tapeStart 8 true).run = ({ tapeStart 8 false with pb := 0x20 } : State).run := by decide

theorem witness_ClassifiedBitIsSetByRunEndAndReadByPbread :
    (after (.stick false) (tapeStart 1 false)).map (·.cbit) = some true ∧ (tapeStart 1 false).run ≠ 0 ∧
    Instr.ptick ≠ .pbread ∧ State.reset.pb.getLsbD 5 = false := by decide

theorem witness_RunBeyondThresholdIsHidden : SameButLongRun (tapeStart 8 false) (tapeStart 1000 false) := by
  unfold SameButLongRun
  decide

theorem witness_VideoRoundTripLaws :
    (∀ b w, .vwrite b w ∈ [Instr.vwrite 1 7, .render true, .reset] →
      b.toNat % 2 ^ State.reset.cfg.vaW ≠ (0xFFFF : Addr).toNat % 2 ^ State.reset.cfg.vaW) ∧
    (0 : Addr).toNat % 2 ^ State.reset.cfg.vaW ≠ (0xFFFF : Addr).toNat % 2 ^ State.reset.cfg.vaW ∧
    (∀ i ∈ [Instr.reset, .ptick, .vread 0], i.mnemonic ≠ .VWRITE) := by
  refine ⟨?_, by decide, by decide⟩
  intro b w h
  simp only [List.mem_cons, Instr.vwrite.injEq, reduceCtorEq, List.not_mem_nil, or_false] at h
  rw [h.1]
  decide

theorem witness_WellFormedAddressIsTheIndex :
    Instr.wf small (.vread 0xFF) = true ∧ Instr.wf small (.vwrite 0x00 1) = true ∧ Config.default.vaW = 16 := by decide

theorem witness_EveryShownBitIsOnePixel :
    3 < State.reset.cfg.rowBytes * State.reset.cfg.rows ∧ 7 < 8 ∧
    8 * (3 % State.reset.cfg.rowBytes) + 7 - 7 = 8 * (1 % State.reset.cfg.rowBytes) + 7 - 7 := by decide

theorem witness_PollIsIndependentOfTheRest :
    (after (.poll true false true) State.reset).isSome = true ∧ (after .ptick State.reset).isSome = true ∧
    Instr.ptick.mnemonic ≠ .POLL := by decide

theorem witness_AssertedLinesHaveNoEffectInside :
    Instr.reset.mnemonic ≠ .POLL ∧ (after .reset { State.reset with rstl := true }).isSome = true := by decide

theorem witness_ReadsAreFreeOfSideEffectsAndWritesIdempotent :
    (Instr.dpread 0 0 0).mnemonic = .DPREAD ∧ Instr.pbread.mnemonic = .PBREAD ∧ (Instr.vread 0).mnemonic = .VREAD ∧
    (Instr.render true).mnemonic = .RENDER ∧ State.reset.vram.wf ∧ (Instr.dpwrite 0x80).mnemonic = .DPWRITE ∧
    (Instr.vwrite 0 1).mnemonic = .VWRITE ∧ (0xA0 : Byte).getLsbD 5 = true ∧ (muxStart 0).cnt.get 5 ≠ 0 := by decide

theorem witness_CommutingPairs :
    Instr.reset.mnemonic ≠ .STICK ∧ Instr.reset.mnemonic ≠ .PBREAD ∧ (∀ d, ¬ Qualifies d .reset State.reset) ∧
    State.reset.vram.wf ∧ Instr.reset.mnemonic ≠ .RENDER ∧
    (∀ b, (Instr.vread 1 = .vread b ∨ ∃ w, Instr.vread 1 = .vwrite b w) →
      b.toNat % 2 ^ State.reset.cfg.vaW ≠ (0 : Addr).toNat % 2 ^ State.reset.cfg.vaW) ∧
    (Instr.stick true).mnemonic ∈ [Mnemonic.STICK, .PTICK, .POLL, .VREAD, .VWRITE, .RENDER] ∧
    Qualifies 5 (.dpwrite 0x80) (withPb 0x12) := by
  refine ⟨by decide, by decide, ?_, by decide, by decide, ?_, by decide, 0x80, rfl, by decide, by decide⟩
  · rintro d ⟨v, h, _⟩
    cases h
  · rintro b (h | ⟨w, h⟩)
    · cases h
      decide
    · cases h

theorem witness_EachStrobeIsItsOperation :
    ({ quietPins with dpRd := true } : PinsIn).strobes = (List.range 11).map (fun j => j == 0) ∧
    ({ quietPins with mreset := true } : PinsIn).strobes = (List.range 11).map (fun j => j == 10) ∧
    quietPins.strobes = (List.range 11).map (fun j => j == 11) ∧
    2 ≤ ({ quietPins with dpWr := true, persTick := true } : PinsIn).strobes.count true := by decide

theorem witness_TraceLineOfAnOperationChecks :
    (after (.pbwrite 0xA0) State.reset).map (fun t => (traceLine (.pbwrite 0xA0) t.out).result) =
      some (some (.cassOut .minus)) := by decide

end Sys2Proof.Tests
end

/-! ## Scope: what a step is, what every operation answers, and the invariant (00_scope.md R5, R9) -/

namespace Sys2Proof.Machine

/-! ### A step is the operation of the next request -/

theorem step_of_pending_cons {s : State} {w : Request} {rest : List Request} (h : s.pending = w :: rest) :
    step s = exec (decode w) { s with pending := rest } := by
  simp [step, State.takeRequest, h]

theorem step_of_pending_nil {s : State} (h : s.pending = []) : step s = exec .nop s := by
  simp [step, State.takeRequest, h]

@[simp] theorem step_putRequest (s : State) (w : Request) : step (s.putRequest w) = exec (decode w) s :=
  step_of_pending_cons (putRequest_pending s w)

/-- A 32-bit request word is issued whole. -/
theorem withFetchWord_toNat (s : State) (w : Request) : s.withFetchWord 32 w.toNat = s.putRequest w := by
  rw [State.withFetchWord, Nat.mod_eq_of_lt w.isLt, BitVec.ofNat_toNat, BitVec.setWidth_eq]

theorem runSteps_succ_of_step {s t : State} (h : step s = .next t) (k : Nat) :
    runSteps (k + 1) s = runSteps k t := by
  simp [runSteps, h]

/-! ### What every operation answers -/

/-- Every operation ends by answering a block and an output, and both depend on the block and the parameters it finds
alone: neither on the output of the latest step nor on the requests still waiting (00_scope.md R9, 60_exceptions.md R120). -/
theorem exec_eq_answer (i : Instr) {s t : State} (hblock : s.toBlock = t.toBlock) (hcfg : s.cfg = t.cfg) :
    ∃ b o, exec i s = s.answer b o ∧ exec i t = t.answer b o := by
  obtain ⟨_, _, _, _⟩ := s
  obtain ⟨_, _, _, _⟩ := t
  obtain rfl := hblock
  obtain rfl := hcfg
  cases i with
  | pbwrite v =>
    cases hv : v.getLsbD 5 with
    | true => exact ⟨_, _, exec_pbwrite_emits hv _, exec_pbwrite_emits hv _⟩
    | false => exact ⟨_, _, exec_pbwrite_silent hv _, exec_pbwrite_silent hv _⟩
  | _ => exact ⟨_, _, rfl, rfl⟩

theorem exec_next_exists (i : Instr) (s : State) : ∃ t, exec i s = .next t := by
  obtain ⟨b, o, h, -⟩ := exec_eq_answer i (Eq.refl s.toBlock) rfl
  exact ⟨_, h⟩

/-- No operation writes the parameters or the waiting requests. -/
theorem exec_cfg_pending {i : Instr} {s t : State} (h : exec i s = .next t) :
    t.cfg = s.cfg ∧ t.pending = s.pending := by
  obtain ⟨b, o, hs, -⟩ := exec_eq_answer i (Eq.refl s.toBlock) rfl
  rw [hs, answer_next_iff] at h
  obtain ⟨-, -, hcfg, hpending⟩ := h
  exact ⟨hcfg, hpending⟩

/-- An operation carries the waiting requests along unread. -/
theorem exec_with_pending {i : Instr} {s t : State} (h : exec i s = .next t) (p : List Request) :
    exec i { s with pending := p } = .next { t with pending := p } := by
  obtain ⟨b, o, hs, hp⟩ := exec_eq_answer i (s := s) (t := { s with pending := p }) rfl rfl
  rw [hs, answer_next_iff] at h
  obtain ⟨hblock, hout, hcfg, -⟩ := h
  rw [hp, answer_next_iff]
  exact ⟨hblock, hout, hcfg, rfl⟩

/-! ### VideoRAM and the invariant -/

theorem displayWrite_vram (b : Block) (t : Target) (v : Byte) : (b.displayWrite t v).vram = b.vram := by
  cases t with
  | row | nothing => rfl
  | digit d =>
    cases hv : v.getLsbD 7 with
    | true => rw [displayWrite_digit b d hv]
    | false => rw [displayWrite_ignored b _ hv]

/-- VWRITE alone writes VideoRAM (10_state.md R10, R16). -/
theorem exec_vram_of_ne_vwrite {i : Instr} {s t : State} (h : exec i s = .next t) (hi : i.mnemonic ≠ .VWRITE) :
    t.vram = s.vram := by
  cases i with
  | vwrite a v => exact absurd rfl hi
  | dpwrite v =>
    cases h
    exact displayWrite_vram _ _ _
  | pbwrite v =>
    cases hv : v.getLsbD 5 with
    | true =>
      rw [exec_pbwrite_emits hv] at h
      cases h
      rfl
    | false =>
      rw [exec_pbwrite_silent hv] at h
      cases h
      rfl
  | _ =>
    cases h
    rfl

/-- Every operation keeps the invariant: the parameters stay, and the one operation that writes VideoRAM writes a byte
of the buffer, canonically. -/
theorem exec_inv {i : Instr} {s t : State} (hs : s.Inv) (h : exec i s = .next t) : t.Inv := by
  obtain ⟨hcfg, hwf, hwithin⟩ := hs
  rw [State.Inv, (exec_cfg_pending h).1]
  by_cases hi : i.mnemonic = .VWRITE
  · cases i with
    | vwrite a v =>
      cases h
      exact ⟨hcfg, write_wf hwf _ v, write_within hwithin (vramIndex_lt _ a) v⟩
    | _ => cases hi
  · rw [exec_vram_of_ne_vwrite h hi]
    exact ⟨hcfg, hwf, hwithin⟩

/-- Power-on takes VideoRAM from the draw and the parameters as given (10_state.md R26). -/
theorem powerOn_inv {c : Config} {draw : Block} (hc : c.wf) (hwf : draw.vram.wf)
    (hwithin : draw.vram.within c.vramSize) : (State.powerOn c draw).Inv :=
  ⟨hc, hwf, hwithin⟩

/-! ### The obligations -/

/-- Settles O27: with a request waiting or without one, a step is an operation on a state with the same parameters and
VideoRAM, and every operation keeps the invariant. -/
theorem stepKeepsInvariant : Obligations.StepKeepsInvariant := by
  intro s t hs h
  cases hp : s.pending with
  | nil =>
    rw [step_of_pending_nil hp] at h
    exact exec_inv hs h
  | cons w rest =>
    rw [step_of_pending_cons hp] at h
    exact exec_inv (s := { s with pending := rest }) hs h

/-- Settles O2, by induction on the waiting requests: each operation is performed alike whatever waits behind it. -/
theorem runPerformsRequestsInOrder : Obligations.RunPerformsRequestsInOrder := by
  intro s
  generalize hp : s.pending = ws
  induction ws generalizing s with
  | nil =>
    change Host.Outcome.next s = .next { s with pending := [] }
    rw [← hp]
  | cons w rest ih =>
    obtain ⟨t, ht⟩ := exec_next_exists (decode w) { s with pending := rest }
    have hstep : step s = .next t := (step_of_pending_cons hp).trans ht
    have htp : t.pending = rest := (exec_cfg_pending ht).2
    calc runSteps (rest.length + 1) s
        = runSteps rest.length t := runSteps_succ_of_step hstep _
      _ = runOps (rest.map decode) { t with pending := [] } := ih t htp
      _ = runOps (decode w :: rest.map decode) { s with pending := [] } :=
          (runOps_cons_next (exec_with_pending ht [])).symm

/-- Settles O1: the three forms of `pending` a step can find. -/
theorem stepPerformsTheNextRequest : Obligations.StepPerformsTheNextRequest := by
  refine ⟨fun s w rest hp => step_of_pending_cons hp, fun s hp => ?_, fun s w => ?_⟩
  · rw [step_of_pending_nil hp, exec_nop, State.answer]
  · rw [withFetchWord_toNat, step_putRequest]

/-- Settles O28: `State.reset` is the power-on state at the zero draw, which lists no byte of VideoRAM. -/
theorem powerOnMeetsInvariant : Obligations.PowerOnMeetsInvariant :=
  ⟨fun _ _ => powerOn_inv, powerOn_inv (by decide) (by decide) (by decide)⟩

end Sys2Proof.Machine

/-! ## The state: each item's next value, and what two runs can tell apart (10_state.md) -/

namespace Sys2Proof.Machine

/-! ### The table of items: the value each item takes, from the items it depends on (10_state.md R10)

The arguments of each function are the items that its row may read, so that an item missing among them has no effect on
it; `exec_eq_perform` ties all of them to the model. -/

/-- One display array after a data-port write of `v`: `a` at the selected digit when `v` qualifies (40_mux.md R71). -/
def Digits.setSelected {α : Type} (x : Digits α) (t : Target) (v : Byte) (a : α) : Digits α :=
  match t with
  | .digit d => if enField v then x.set d a else x
  | .row _ => x
  | .nothing => x

/-- `PB` after an operation (10_state.md R11). -/
def pbAfter (i : Instr) (pb : Byte) : Byte :=
  match i with
  | .pbwrite v => v
  | .reset => 0
  | _ => pb

/-- `CNT` after an operation (10_state.md R12). -/
def cntAfter (i : Instr) (pb : Byte) (cnt : Digits Count) : Digits Count :=
  match i with
  | .dpwrite v => cnt.setSelected (target (selField pb)) v PERSIST_INIT
  | .ptick => cnt.map decay
  | .reset => Digits.fill 0
  | _ => cnt

/-- `LATCH` after an operation (10_state.md R13). -/
def latchAfter (i : Instr) (pb : Byte) (latch : Digits Pattern) : Digits Pattern :=
  match i with
  | .dpwrite v => latch.setSelected (target (selField pb)) v (patField v)
  | _ => latch

/-- `RUN` after an operation (10_state.md R14). -/
def runAfter (i : Instr) (run : Nat) : Nat :=
  match i with
  | .stick pos => nextRun pos run
  | _ => run

/-- `CBIT` after an operation (10_state.md R15). -/
def cbitAfter (i : Instr) (run : Nat) (cbit : Bool) : Bool :=
  match i with
  | .stick pos => nextCbit pos run cbit
  | _ => cbit

/-- `VRAM` after an operation (10_state.md R16). -/
def vramAfter (c : Config) (i : Instr) (vram : Memory) : Memory :=
  match i with
  | .vwrite a v => vram.write (vramIndex c a) v
  | _ => vram

/-- `RSTL` after an operation (10_state.md R17). -/
def rstlAfter (i : Instr) (rstl : Bool) : Bool :=
  match i with
  | .poll rs _ _ => rs
  | _ => rstl

/-- `IRQL` after an operation (10_state.md R17). -/
def irqlAfter (i : Instr) (irql : Bool) : Bool :=
  match i with
  | .poll _ st _ => st
  | _ => irql

/-- `CLVL` after an operation (10_state.md R18). -/
def clvlAfter (i : Instr) (clvl : Bool) : Bool :=
  match i with
  | .pbwrite v => if modeField v then lvlField v else clvl
  | _ => clvl

/-- What an operation produces: the outputs read `PB`, `CBIT` and `VRAM` alone (00_scope.md R9). -/
def outputFrom (c : Config) (i : Instr) (pb : Byte) (cbit : Bool) (vram : Memory) : Output :=
  match i with
  | .dpread r0 r1 r2 => Output.ofRead (rowRead r0 r1 r2 (target (selField pb)))
  | .pbread => Output.ofRead (portBRead pb cbit)
  | .pbwrite v => if modeField v then Output.ofCass (Level.ofBit (lvlField v)) else Output.nothing
  | .vread a => Output.ofRead (vram.read (vramIndex c a))
  | .render flip => Output.ofFrame (renderFrame c flip vram)
  | _ => Output.nothing

/-- The state an operation leaves, item by item. -/
def State.perform (s : State) (i : Instr) : State where
  pb := pbAfter i s.pb
  cnt := cntAfter i s.pb s.cnt
  latch := latchAfter i s.pb s.latch
  run := runAfter i s.run
  cbit := cbitAfter i s.run s.cbit
  vram := vramAfter s.cfg i s.vram
  rstl := rstlAfter i s.rstl
  irql := irqlAfter i s.irql
  clvl := clvlAfter i s.clvl
  cfg := s.cfg
  out := outputFrom s.cfg i s.pb s.cbit s.vram
  pending := s.pending

theorem displayWrite_eq_setSelected (b : Block) (t : Target) (v : Byte) :
    b.displayWrite t v = { b with latch := b.latch.setSelected t v (patField v),
                                  cnt := b.cnt.setSelected t v PERSIST_INIT } := by
  cases t with
  | row | nothing => rfl
  | digit d =>
    unfold Block.displayWrite Digits.setSelected
    cases enField v <;> rfl

theorem not_modeField {v : Byte} (h : v.getLsbD 5 = false) : ¬ modeField v = true := Bool.eq_false_iff.1 h

theorem clvlAfter_emits {v : Byte} (h : v.getLsbD 5 = true) (l : Bool) :
    clvlAfter (.pbwrite v) l = v.getLsbD 7 := if_pos h

theorem clvlAfter_silent {v : Byte} (h : v.getLsbD 5 = false) (l : Bool) : clvlAfter (.pbwrite v) l = l :=
  if_neg (not_modeField h)

theorem outputFrom_emits {v : Byte} (h : v.getLsbD 5 = true) (c : Config) (pb : Byte) (cbit : Bool) (m : Memory) :
    outputFrom c (.pbwrite v) pb cbit m = Output.ofCass (Level.ofBit (v.getLsbD 7)) := if_pos h

theorem outputFrom_silent {v : Byte} (h : v.getLsbD 5 = false) (c : Config) (pb : Byte) (cbit : Bool) (m : Memory) :
    outputFrom c (.pbwrite v) pb cbit m = Output.nothing := if_neg (not_modeField h)

/-- Every operation answers the state that the table of items gives. -/
theorem exec_eq_perform (i : Instr) (s : State) : exec i s = .next (s.perform i) := by
  cases i with
  | dpwrite v => rw [exec_dpwrite, displayWrite_eq_setSelected]; rfl
  | poll rs st md => rw [exec_poll]; rfl
  | pbwrite v =>
    cases hv : v.getLsbD 5 with
    | true => rw [exec_pbwrite_emits hv, State.perform, clvlAfter_emits hv, outputFrom_emits hv]; rfl
    | false => rw [exec_pbwrite_silent hv, State.perform, clvlAfter_silent hv, outputFrom_silent hv]; rfl
  | _ => rfl

theorem eq_perform_of_exec {i : Instr} {s t : State} (h : exec i s = .next t) : t = s.perform i := by
  rw [exec_eq_perform] at h
  cases h
  rfl

theorem runOps_eq_foldl (is : List Instr) (s : State) : runOps is s = .next (is.foldl State.perform s) := by
  induction is generalizing s with
  | nil => rfl
  | cons i is ih => rw [runOps_cons_next (exec_eq_perform i s), ih, List.foldl_cons]

/-- A digit array is written at the selected digit alone, and there by a qualifying byte alone. -/
theorem get_setSelected {α : Type} (x : Digits α) (t : Target) (v : Byte) (a : α) (d : Fin 6) :
    (x.setSelected t v a).get d = if t = .digit d ∧ enField v = true then a else x.get d := by
  cases t with
  | row r => simp [Digits.setSelected]
  | nothing => simp [Digits.setSelected]
  | digit e =>
    cases hv : enField v with
    | false => simp [Digits.setSelected, hv]
    | true =>
      by_cases he : e = d
      · simp [Digits.setSelected, hv, he]
      · simp [Digits.setSelected, hv, he, digits_get_set_ne x a (Ne.symm he)]

/-! ### Two runs of the same operations -/

/-- A relation that no operation tells apart: related states give the same output and related states again. -/
def Indistinguishable (R : State → State → Prop) : Prop :=
  ∀ (i : Instr) (s t : State), R s t → (s.perform i).out = (t.perform i).out ∧ R (s.perform i) (t.perform i)

/-- What one operation cannot tell apart, no list of operations can. -/
theorem Indistinguishable.runs {R : State → State → Prop} (hR : Indistinguishable R) (is : List Instr) {s t : State}
    (h : R s t) : outputsOf is s = outputsOf is t ∧
      ∃ u v, runOps is s = .next u ∧ runOps is t = .next v ∧ R u v := by
  induction is generalizing s t with
  | nil => exact ⟨rfl, s, t, rfl, rfl, h⟩
  | cons i is ih =>
    obtain ⟨hout, hnext⟩ := hR i s t h
    obtain ⟨houts, hruns⟩ := ih hnext
    rw [outputsOf_cons_next (exec_eq_perform i s), outputsOf_cons_next (exec_eq_perform i t),
      runOps_cons_next (exec_eq_perform i s), runOps_cons_next (exec_eq_perform i t), hout, houts]
    exact ⟨rfl, hruns⟩

/-- A relation kept by every operation, and by an operation outside `p` on the left alone, relates a run to the run of
its operations in `p`. -/
theorem foldl_related_filter {R : State → State → Prop} {p : Instr → Bool}
    (hboth : ∀ i s t, R s t → R (s.perform i) (t.perform i))
    (hleft : ∀ i s t, p i = false → R s t → R (s.perform i) t) (is : List Instr) {s t : State} (h : R s t) :
    R (is.foldl State.perform s) ((is.filter p).foldl State.perform t) := by
  induction is generalizing s t with
  | nil => exact h
  | cons i is ih =>
    cases hp : p i with
    | true =>
      rw [List.filter_cons_of_pos hp]
      exact ih (hboth i s t h)
    | false =>
      rw [List.filter_cons_of_neg (by simp [hp])]
      exact ih (hleft i s t hp h)

/-! ### The nine items -/

/-- The two states agree on the nine items and on the parameters. -/
def SameItems (s t : State) : Prop := s.toBlock = t.toBlock ∧ s.cfg = t.cfg

theorem sameItems_indistinguishable : Indistinguishable SameItems := by
  rintro i ⟨b, c, o, p⟩ ⟨b', c', o', p'⟩ ⟨hblock, hcfg⟩
  obtain rfl : b = b' := hblock
  obtain rfl : c = c' := hcfg
  exact ⟨rfl, rfl, rfl⟩

/-- Settles O26: a step reads neither the latest output nor the waiting requests; of the items that the save-state list
leaves out, `CLVL` is itself an output signal. -/
theorem nineItemsAreTheWholeState : Obligations.NineItemsAreTheWholeState := by
  refine ⟨fun is s t hblock hcfg => ?_, State.reset, { State.reset with clvl := true }, rfl, rfl, rfl, fun h => ?_⟩
  · obtain ⟨houts, u, v, hu, hv, huv, -⟩ := sameItems_indistinguishable.runs is ⟨hblock, hcfg⟩
    exact ⟨houts, u, v, hu, hv, huv⟩
  · exact Bool.false_ne_true (congrArg PinsOut.cassLvl h)

/-! ### A latch behind a zero counter -/

theorem sameButDarkLatch_iff {s t : State} : SameButDarkLatch s t ↔
    ∃ l, s = { t with latch := l } ∧ ∀ d, t.cnt.get d ≠ 0 → l.get d = t.latch.get d := by
  constructor
  · rintro ⟨hs, hlit⟩
    have hcnt : s.cnt = t.cnt := by rw [hs]
    exact ⟨s.latch, hs, hcnt ▸ hlit⟩
  · rintro ⟨l, rfl, hlit⟩
    exact ⟨rfl, hlit⟩

/-- A counter that is not 0 after an operation was loaded by it, with the latch, or was not 0 before. -/
theorem latchAfter_get_eq (i : Instr) (pb : Byte) (cnt : Digits Count) {l m : Digits Pattern}
    (hlit : ∀ d, cnt.get d ≠ 0 → l.get d = m.get d) (d : Fin 6) (hd : (cntAfter i pb cnt).get d ≠ 0) :
    (latchAfter i pb l).get d = (latchAfter i pb m).get d := by
  cases i with
  | dpwrite v =>
    simp only [cntAfter, latchAfter, get_setSelected] at hd ⊢
    split
    · rfl
    · next hsel =>
      rw [if_neg hsel] at hd
      exact hlit d hd
  | ptick =>
    refine hlit d fun hzero => hd ?_
    rw [cntAfter, digits_get_map, hzero, decay_zero]
  | reset => exact absurd (digits_get_fill 0 d) hd
  | _ => exact hlit d hd

theorem sameButDarkLatch_indistinguishable : Indistinguishable SameButDarkLatch := by
  intro i s t h
  obtain ⟨l, rfl, hlit⟩ := sameButDarkLatch_iff.1 h
  exact ⟨rfl, sameButDarkLatch_iff.2 ⟨latchAfter i t.pb l, rfl, latchAfter_get_eq i t.pb t.cnt hlit⟩⟩

/-- A digit at counter 0 is blank whatever its latch holds (42_persistence.md R91). -/
theorem SameButDarkLatch.sameSignals {s t : State} (h : SameButDarkLatch s t) : SameSignals s t := by
  obtain ⟨l, rfl, hlit⟩ := sameButDarkLatch_iff.1 h
  have hseg : Block.seg { t.toBlock with latch := l } = t.toBlock.seg := by
    funext d
    by_cases hd : t.cnt.get d = 0
    · simp [Block.seg, hd]
    · simp [Block.seg, hlit d hd]
  simp [SameSignals, State.pinsOut, hseg]

/-- Settles O34: only a qualifying DPWRITE lights a dark digit, and it overwrites the latch. -/
theorem latchBehindZeroCounterIsHidden : Obligations.LatchBehindZeroCounterIsHidden := by
  intro is s t h
  obtain ⟨houts, u, v, hu, hv, huv⟩ := sameButDarkLatch_indistinguishable.runs is h
  exact ⟨houts, u, v, hu, hv, huv, huv.sameSignals⟩

/-! ### A run beyond the threshold -/

/-- The two run lengths are equal or both of 8 or more. -/
def SameRunClass (m n : Nat) : Prop := m = n ∨ (8 ≤ m ∧ 8 ≤ n)

theorem sameButLongRun_iff {s t : State} : SameButLongRun s t ↔
    ∃ n, s = { t with run := n } ∧ SameRunClass n t.run := by
  constructor
  · rintro ⟨hs, hrun⟩
    exact ⟨s.run, hs, hrun⟩
  · rintro ⟨n, rfl, hrun⟩
    exact ⟨rfl, hrun⟩

/-- Every run of 8 or more is classified 0 (41_cassette.md R83). -/
theorem nextCbit_long_run {n : Nat} (hn : 8 ≤ n) (c : Bool) : nextCbit false n c = false := by
  rw [nextCbit_run_end (by omega), classify_eq_false_iff]
  exact hn

theorem nextRun_sameRunClass {m n : Nat} (h : SameRunClass m n) (pos : Bool) :
    SameRunClass (nextRun pos m) (nextRun pos n) := by
  cases pos with
  | true =>
    rw [nextRun_positive, nextRun_positive]
    unfold SameRunClass at h ⊢
    omega
  | false => exact .inl rfl

theorem nextCbit_eq_of_sameRunClass {m n : Nat} (h : SameRunClass m n) (pos c : Bool) :
    nextCbit pos m c = nextCbit pos n c := by
  obtain rfl | ⟨hm, hn⟩ := h
  · rfl
  · cases pos with
    | true => rw [nextCbit_positive, nextCbit_positive]
    | false => rw [nextCbit_long_run hm, nextCbit_long_run hn]

theorem runAfter_sameRunClass {m n : Nat} (h : SameRunClass m n) (i : Instr) :
    SameRunClass (runAfter i m) (runAfter i n) := by
  cases i with
  | stick pos => exact nextRun_sameRunClass h pos
  | _ => exact h

theorem cbitAfter_eq_of_sameRunClass {m n : Nat} (h : SameRunClass m n) (i : Instr) (c : Bool) :
    cbitAfter i m c = cbitAfter i n c := by
  cases i with
  | stick pos => exact nextCbit_eq_of_sameRunClass h pos c
  | _ => rfl

theorem sameButLongRun_indistinguishable : Indistinguishable SameButLongRun := by
  intro i s t h
  obtain ⟨n, rfl, hrun⟩ := sameButLongRun_iff.1 h
  refine ⟨rfl, sameButLongRun_iff.2 ⟨runAfter i n, ?_, runAfter_sameRunClass hrun i⟩⟩
  simp only [State.perform, cbitAfter_eq_of_sameRunClass hrun]

/-- `RUN` is no output signal (20_memory.md R45). -/
theorem SameButLongRun.sameSignals {s t : State} (h : SameButLongRun s t) : SameSignals s t := by
  obtain ⟨n, rfl, -⟩ := sameButLongRun_iff.1 h
  rfl

/-- Settles O40: `RUN` is read by the classification alone, which is 0 from 8 on. -/
theorem runBeyondThresholdIsHidden : Obligations.RunBeyondThresholdIsHidden := by
  intro is s t h
  obtain ⟨houts, u, v, hu, hv, huv⟩ := sameButLongRun_indistinguishable.runs is h
  exact ⟨houts, u, v, hu, hv, huv, huv.sameSignals⟩

/-! ### The video path and the rest -/

/-- The two states agree on VideoRAM and on the parameters. -/
def SameVideo (s t : State) : Prop := s.vram = t.vram ∧ s.cfg = t.cfg

/-- The two states agree on every item but VideoRAM. -/
def SameButVideo (s t : State) : Prop := s.toBlock = { t.toBlock with vram := s.vram }

theorem sameButVideo_iff {s t : State} : SameButVideo s t ↔ ∃ m, s.toBlock = { t.toBlock with vram := m } := by
  constructor
  · exact fun h => ⟨s.vram, h⟩
  · rintro ⟨m, h⟩
    rw [SameButVideo, h]

theorem vramAfter_of_not_video (c : Config) {i : Instr} (hi : isVideo i = false) (m : Memory) :
    vramAfter c i m = m := by
  cases i with
  | vwrite a v => cases hi
  | _ => rfl

theorem perform_sameVideo (i : Instr) (s t : State) (h : SameVideo s t) : SameVideo (s.perform i) (t.perform i) := by
  obtain ⟨hvram, hcfg⟩ := h
  refine ⟨?_, hcfg⟩
  simp only [State.perform, hvram, hcfg]

theorem perform_sameVideo_left (i : Instr) (s t : State) (hi : isVideo i = false) (h : SameVideo s t) :
    SameVideo (s.perform i) t :=
  ⟨(vramAfter_of_not_video s.cfg hi s.vram).trans h.1, h.2⟩

/-- No item but VideoRAM depends on VideoRAM. -/
theorem perform_sameButVideo (i : Instr) (s t : State) (h : SameButVideo s t) :
    SameButVideo (s.perform i) (t.perform i) := by
  obtain ⟨b, c, o, p⟩ := s
  obtain ⟨m, hblock⟩ := sameButVideo_iff.1 h
  obtain rfl : b = { t.toBlock with vram := m } := hblock
  rfl

/-- A video operation writes no item but VideoRAM. -/
theorem perform_video_toBlock {i : Instr} (hi : isVideo i = true) (s : State) :
    (s.perform i).toBlock = { s.toBlock with vram := vramAfter s.cfg i s.vram } := by
  cases i with
  | vread | vwrite | render => rfl
  | _ => cases hi

theorem perform_sameButVideo_left (i : Instr) (s t : State) (hi : (!isVideo i) = false) (h : SameButVideo s t) :
    SameButVideo (s.perform i) t := by
  obtain ⟨m, hs⟩ := sameButVideo_iff.1 h
  rw [sameButVideo_iff, perform_video_toBlock (by simpa using hi) s, hs]
  exact ⟨_, rfl⟩

/-- A run of video operations leaves every item but VideoRAM as it was. -/
theorem foldl_video_sameButVideo (is : List Instr) (s : State) :
    SameButVideo ((is.filter isVideo).foldl State.perform s) s := by
  have hnone : (is.filter isVideo).filter (fun i => !isVideo i) = [] := by simp [List.filter_filter]
  have h := foldl_related_filter perform_sameButVideo perform_sameButVideo_left (is.filter isVideo)
    (show SameButVideo s s from rfl)
  rwa [hnone] at h

/-- Settles O46: the run agrees on VideoRAM with its video operations and on everything else with the others. -/
theorem videoPathIsIndependent : Obligations.VideoPathIsIndependent := by
  intro is s
  have hvideo : SameVideo (is.foldl State.perform s) ((is.filter isVideo).foldl State.perform s) :=
    foldl_related_filter perform_sameVideo perform_sameVideo_left is ⟨rfl, rfl⟩
  have hrest : SameButVideo (is.foldl State.perform s) ((is.filter fun i => !isVideo i).foldl State.perform s) :=
    foldl_related_filter perform_sameButVideo perform_sameButVideo_left is rfl
  refine ⟨_, _, _, runOps_eq_foldl is s, runOps_eq_foldl _ s, runOps_eq_foldl _ s, ?_, foldl_video_sameButVideo is s⟩
  rw [← hvideo.1]
  exact hrest

/-! ### Which operations write an item -/

theorem pbAfter_ne {i : Instr} {pb : Byte} (h : pbAfter i pb ≠ pb) : i.mnemonic = .PBWRITE ∨ i.mnemonic = .RESET := by
  cases i with
  | pbwrite => exact .inl rfl
  | reset => exact .inr rfl
  | _ => exact absurd rfl h

theorem cntAfter_ne {i : Instr} {pb : Byte} {cnt : Digits Count} (h : cntAfter i pb cnt ≠ cnt) :
    i.mnemonic = .DPWRITE ∨ i.mnemonic = .PTICK ∨ i.mnemonic = .RESET := by
  cases i with
  | dpwrite => exact .inl rfl
  | ptick => exact .inr (.inl rfl)
  | reset => exact .inr (.inr rfl)
  | _ => exact absurd rfl h

theorem latchAfter_ne {i : Instr} {pb : Byte} {l : Digits Pattern} (h : latchAfter i pb l ≠ l) :
    i.mnemonic = .DPWRITE := by
  cases i with
  | dpwrite => rfl
  | _ => exact absurd rfl h

theorem runAfter_ne {i : Instr} {n : Nat} (h : runAfter i n ≠ n) : i.mnemonic = .STICK := by
  cases i with
  | stick => rfl
  | _ => exact absurd rfl h

/-- Only the end of a positive run sets `CBIT` (10_state.md R15, R22). -/
theorem cbitAfter_ne {i : Instr} {n : Nat} {c : Bool} (h : cbitAfter i n c ≠ c) : i = .stick false ∧ n ≠ 0 := by
  cases i with
  | stick pos =>
    cases pos with
    | true => exact absurd (nextCbit_positive n c) h
    | false =>
      refine ⟨rfl, ?_⟩
      rintro rfl
      exact h (nextCbit_no_run c)
  | _ => exact absurd rfl h

theorem vramAfter_ne {c : Config} {i : Instr} {m : Memory} (h : vramAfter c i m ≠ m) : i.mnemonic = .VWRITE := by
  cases i with
  | vwrite => rfl
  | _ => exact absurd rfl h

theorem rstlAfter_ne {i : Instr} {r : Bool} (h : rstlAfter i r ≠ r) : i.mnemonic = .POLL := by
  cases i with
  | poll => rfl
  | _ => exact absurd rfl h

theorem irqlAfter_ne {i : Instr} {q : Bool} (h : irqlAfter i q ≠ q) : i.mnemonic = .POLL := by
  cases i with
  | poll => rfl
  | _ => exact absurd rfl h

/-- `CLVL` is written only by a PBWRITE with bit 5 of the byte set (41_cassette.md R82). -/
theorem clvlAfter_ne {i : Instr} {l : Bool} (h : clvlAfter i l ≠ l) : ∃ v, i = .pbwrite v ∧ v.getLsbD 5 = true := by
  cases i with
  | pbwrite v =>
    refine ⟨v, rfl, ?_⟩
    by_contra hv
    exact h (clvlAfter_silent (Bool.eq_false_iff.2 hv) l)
  | _ => exact absurd rfl h

/-- Settles O25, row by row of the table of items. -/
theorem onlyItsWritersChangeAnItem : Obligations.OnlyItsWritersChangeAnItem := by
  intro i s t h
  obtain rfl := eq_perform_of_exec h
  exact ⟨rfl, rfl, pbAfter_ne, cntAfter_ne, latchAfter_ne, runAfter_ne,
    fun hc => (cbitAfter_ne hc).1 ▸ rfl, vramAfter_ne, rstlAfter_ne, irqlAfter_ne, clvlAfter_ne⟩

/-! ### The status flag -/

/-- PBREAD alone reads `CBIT` for its output. -/
theorem outputFrom_cbit {i : Instr} (hi : i ≠ .pbread) (cfg : Config) (pb : Byte) (c c' : Bool) (m : Memory) :
    outputFrom cfg i pb c m = outputFrom cfg i pb c' m := by
  cases i with
  | pbread => exact absurd rfl hi
  | _ => rfl

/-- Outside write mode bit 7 of a Port B read is the complement of `CBIT` (30_encoding.md R59). -/
theorem portBRead_read_mode {pb : Byte} (h : pb.getLsbD 5 = false) (c : Bool) :
    portBRead pb c = if c then 0x7F else 0xFF := by
  rw [portBRead, if_neg (not_modeField h)]
  cases c <;> rfl

/-- Settles O39: `CBIT` is written by the end of a run and read for the output of PBREAD and for itself alone. -/
theorem classifiedBitIsSetByRunEndAndReadByPbread : Obligations.ClassifiedBitIsSetByRunEndAndReadByPbread := by
  refine ⟨fun i s t h hne => ?_, fun s hrun => ?_, fun i s c hi => ?_, fun s hmode => ?_⟩
  · obtain rfl := eq_perform_of_exec h
    exact cbitAfter_ne hne
  · exact ⟨_, exec_stick false s, nextCbit_run_end hrun s.cbit⟩
  · refine ⟨_, _, exec_eq_perform i s, exec_eq_perform i _, ?_⟩
    simp only [State.perform, outputFrom_cbit hi s.cfg s.pb c s.cbit s.vram]
  · refine ⟨_, _, exec_pbread _, exec_pbread _, ?_, ?_⟩
    · exact congrArg some (portBRead_read_mode hmode true)
    · exact congrArg some (portBRead_read_mode hmode false)

/-! ### VideoRAM at power-on -/

/-- The memory that holds `f a` at each of the first `n` addresses and lists no other. -/
def Memory.holding (f : Nat → Byte) : Nat → Memory
  | 0 => []
  | n + 1 => (Memory.holding f n).write n (f n)

theorem holding_wf (f : Nat → Byte) (n : Nat) : (Memory.holding f n).wf := by
  induction n with
  | zero => exact ⟨List.Pairwise.nil, fun _ h => absurd h List.not_mem_nil⟩
  | succ n ih => exact write_wf ih n (f n)

theorem holding_within (f : Nat → Byte) (n : Nat) : (Memory.holding f n).within n := by
  induction n with
  | zero => exact fun _ h => absurd h List.not_mem_nil
  | succ n ih => exact write_within (fun cell hc => Nat.lt_succ_of_lt (ih cell hc)) n.lt_succ_self (f n)

theorem read_holding (f : Nat → Byte) {n a : Nat} (h : a < n) : (Memory.holding f n).read a = f a := by
  induction n with
  | zero => exact absurd h a.not_lt_zero
  | succ n ih =>
    rw [Memory.holding]
    obtain hlt | rfl := Nat.lt_succ_iff_lt_or_eq.1 h
    · rw [read_write_other _ _ hlt.ne, ih hlt]
    · exact read_write_same _ _ _

/-- Settles O44: the draw whose VideoRAM is written byte by byte over the whole buffer. -/
theorem everyVideoRamContentsCanBeDrawn : Obligations.EveryVideoRamContentsCanBeDrawn := by
  intro c f
  exact ⟨{ Block.zeroDraw with vram := Memory.holding f c.vramSize }, holding_wf f _, holding_within f _,
    fun _ => read_holding f⟩

/-! ### The lines -/

/-- Settles O48: no item but a line takes a line among what it depends on, and no output does. -/
theorem assertedLinesHaveNoEffectInside : Obligations.AssertedLinesHaveNoEffectInside := by
  refine ⟨fun s => ⟨rfl, rfl⟩, fun i s r q => ?_⟩
  refine ⟨_, _, exec_eq_perform i s, exec_eq_perform i _, rfl, fun hi => ⟨?_, ?_⟩⟩
  · exact not_not.1 (mt rstlAfter_ne hi)
  · exact not_not.1 (mt irqlAfter_ne hi)

/-! ### Power-on -/

/-- A block with `PB` and every counter zero is its own draw (10_state.md R26). -/
theorem powerOn_toBlock_of_zero (c : Config) {b : Block} (hpb : b.pb = 0x00) (hcnt : ∀ d, b.cnt.get d = 0) :
    (State.powerOn c b).toBlock = b := by
  have hfill : b.cnt = Digits.fill 0 := digits_eq_of_get fun d => (hcnt d).trans (digits_get_fill 0 d).symm
  calc (State.powerOn c b).toBlock
      = { b with pb := 0x00, cnt := Digits.fill 0 } := rfl
    _ = b := by rw [← hpb, ← hfill]

/-- Settles O22: RESET clears what power-on clears. -/
theorem powerOnIsDrawThenReset : Obligations.PowerOnIsDrawThenReset :=
  ⟨fun _ _ => exec_reset _, fun c b hpb hcnt => ⟨b, powerOn_toBlock_of_zero c hpb hcnt⟩, _, _, rfl⟩

end Sys2Proof.Machine

/-! ## Ordering, routing and the signals (20_memory.md) -/

namespace Sys2Proof.Machine

/-! ### Every interleaving of the event sources -/

/-- Settles O29, by induction on the events: each is an operation, and every operation keeps the invariant and the
parameters. -/
theorem everyInterleavingKeepsInvariant : Obligations.EveryInterleavingKeepsInvariant := by
  intro s t hs hreach
  induction hreach with
  | here => exact ⟨hs, rfl⟩
  | event _ hevent ih =>
    obtain ⟨i, hi⟩ := hevent
    obtain ⟨hinv, hcfg⟩ := ih
    exact ⟨exec_inv hinv hi, (exec_cfg_pending hi).1.trans hcfg⟩

/-! ### A counter along a fair schedule -/

/-- The select decode finds the digit of a qualifying display write (40_mux.md R71). -/
theorem qualifies_dpwrite_iff {d : Fin 6} {v : Byte} {s : State} :
    Qualifies d (.dpwrite v) s ↔ target (selField s.pb) = .digit d ∧ enField v = true := by
  rw [target_eq_digit_iff]
  constructor
  · rintro ⟨w, hw, hen, hsel⟩
    cases hw
    exact ⟨hsel, hen⟩
  · rintro ⟨hsel, hen⟩
    exact ⟨v, rfl, hen, hsel⟩

@[simp] theorem perform_ptick_cnt (s : State) : (s.perform .ptick).cnt = s.cnt.map decay := rfl

/-- A qualifying write loads the counter with its maximum (40_mux.md R71). -/
theorem perform_cnt_of_qualifies {d : Fin 6} {i : Instr} {s : State} (h : Qualifies d i s) :
    (s.perform i).cnt.get d = 15 := by
  have hq := h
  obtain ⟨v, rfl, -⟩ := hq
  exact (get_setSelected _ _ _ _ _).trans (if_pos (qualifies_dpwrite_iff.1 h))

/-- Only a qualifying write raises a counter (42_persistence.md R93). -/
theorem perform_cnt_le {d : Fin 6} {i : Instr} {s : State} (h : ¬ Qualifies d i s) :
    ((s.perform i).cnt.get d).toNat ≤ (s.cnt.get d).toNat := by
  cases i with
  | dpwrite v =>
    rw [qualifies_dpwrite_iff] at h
    simp [State.perform, cntAfter, get_setSelected, h]
  | ptick =>
    rw [perform_ptick_cnt, digits_get_map, decay_toNat]
    exact Nat.sub_le _ _
  | reset => simp [State.perform, cntAfter]
  | _ => exact le_rfl

/-- The state after the first `n` operations of a schedule. -/
def scheduleState (f : Nat → Instr) (s : State) (n : Nat) : State := (firstOps f n).foldl State.perform s

theorem runOps_firstOps (f : Nat → Instr) (s : State) (n : Nat) :
    runOps (firstOps f n) s = .next (scheduleState f s n) := runOps_eq_foldl _ s

theorem firstOps_succ (f : Nat → Instr) (n : Nat) : firstOps f (n + 1) = firstOps f n ++ [f n] := by
  simp [firstOps, List.range_succ]

theorem scheduleState_succ (f : Nat → Instr) (s : State) (n : Nat) :
    scheduleState f s (n + 1) = (scheduleState f s n).perform (f n) := by
  simp [scheduleState, firstOps_succ]

/-- No write along a list is none by its last operation. -/
theorem not_qualifies_of_noWriteTo_append {d : Fin 6} {is : List Instr} {i : Instr} {s : State}
    (h : NoWriteTo d (is ++ [i]) s) : ¬ Qualifies d i (is.foldl State.perform s) := by
  induction is generalizing s with
  | nil =>
    obtain ⟨hi, -⟩ := h
    exact hi
  | cons j is ih =>
    obtain ⟨-, hrest⟩ := h
    exact ih (hrest _ (exec_eq_perform j s))

/-- A number that never rises and falls by one again and again until it is 0 is 0 from some point on. -/
theorem eventually_zero {c : Nat → Nat} (hle : ∀ n, c (n + 1) ≤ c n)
    (hfalls : ∀ n, ∃ m, n ≤ m ∧ c (m + 1) = c m - 1) : ∃ N, ∀ n, N ≤ n → c n = 0 := by
  have hanti : Antitone c := antitone_nat_of_succ_le hle
  have hreach : ∀ k n, c n ≤ k → ∃ N, c N = 0 := by
    intro k
    induction k with
    | zero => exact fun n hn => ⟨n, Nat.le_zero.1 hn⟩
    | succ k ih =>
      intro n hn
      obtain ⟨m, hnm, hm⟩ := hfalls n
      have hmn : c m ≤ c n := hanti hnm
      exact ih (m + 1) (by omega)
  obtain ⟨N, hN⟩ := hreach (c 0) 0 le_rfl
  exact ⟨N, fun n hn => Nat.le_zero.1 (hN ▸ hanti hn)⟩

theorem pinsOut_seg_of_cnt_zero {s : State} {d : Fin 6} (h : s.cnt.get d = 0) : s.pinsOut.seg.get d = 0 := by
  simp [State.pinsOut, Block.seg, h]

/-- Settles O35: the digit's counter never rises, each of the recurring ticks takes one from it, and at 0 the digit is
blank. -/
theorem unwrittenDigitGoesBlankForEver : Obligations.UnwrittenDigitGoesBlankForEver := by
  intro f s d hfair hquiet
  have hle : ∀ n, ((scheduleState f s (n + 1)).cnt.get d).toNat ≤ ((scheduleState f s n).cnt.get d).toNat := by
    intro n
    have hn := hquiet (n + 1)
    rw [firstOps_succ] at hn
    rw [scheduleState_succ]
    exact perform_cnt_le (not_qualifies_of_noWriteTo_append hn)
  have hfalls : ∀ n, ∃ m, n ≤ m ∧
      ((scheduleState f s (m + 1)).cnt.get d).toNat = ((scheduleState f s m).cnt.get d).toNat - 1 := by
    intro n
    obtain ⟨-, m, hnm, hm⟩ := hfair n
    refine ⟨m, hnm, ?_⟩
    rw [scheduleState_succ, hm, perform_ptick_cnt, digits_get_map, decay_toNat]
  obtain ⟨N, hN⟩ := eventually_zero (c := fun n => ((scheduleState f s n).cnt.get d).toNat) hle hfalls
  refine ⟨N, fun n hn => ⟨_, runOps_firstOps f s n, pinsOut_seg_of_cnt_zero ?_⟩⟩
  exact BitVec.eq_of_toNat_eq (hN n hn)

/-! ### What routes a data-port access -/

/-- A list without PBWRITE and RESET leaves `PB` as it was (40_mux.md R73). -/
theorem foldl_pb {is : List Instr} (h : ∀ i ∈ is, i.mnemonic ≠ .PBWRITE ∧ i.mnemonic ≠ .RESET) (s : State) :
    (is.foldl State.perform s).pb = s.pb := by
  induction is generalizing s with
  | nil => rfl
  | cons i is ih =>
    obtain ⟨hi, his⟩ := List.forall_mem_cons.1 h
    have hpb : (s.perform i).pb = s.pb := by
      by_contra hne
      exact (pbAfter_ne hne).elim hi.1 hi.2
    rw [List.foldl_cons, ih his, hpb]

theorem outputFrom_dpread (c : Config) (r0 r1 r2 : RowMask) (pb : Byte) (cbit : Bool) (m : Memory) :
    outputFrom c (.dpread r0 r1 r2) pb cbit m = Output.ofRead (rowRead r0 r1 r2 (target (selField pb))) := rfl

/-- Of `PB` a data-port access uses the select index alone. -/
theorem dataPort_uses_select {i : Instr} (hi : i.mnemonic = .DPREAD ∨ i.mnemonic = .DPWRITE) {pb v : Byte}
    (hsel : selField v = selField pb) (c : Config) (cnt : Digits Count) (latch : Digits Pattern) (cbit : Bool)
    (m : Memory) :
    cntAfter i v cnt = cntAfter i pb cnt ∧ latchAfter i v latch = latchAfter i pb latch ∧
      outputFrom c i v cbit m = outputFrom c i pb cbit m := by
  cases i with
  | dpread => exact ⟨rfl, rfl, by rw [outputFrom_dpread, outputFrom_dpread, hsel]⟩
  | dpwrite => exact ⟨by simp only [cntAfter, hsel], by simp only [latchAfter, hsel], rfl⟩
  | _ => simp [Instr.mnemonic] at hi

theorem pbAfter_dataPort {i : Instr} (hi : i.mnemonic = .DPREAD ∨ i.mnemonic = .DPWRITE) (pb : Byte) :
    pbAfter i pb = pb := by
  by_contra hne
  rcases pbAfter_ne hne with h | h <;> simp [h] at hi

theorem perform_with_pb {i : Instr} {s : State} {v : Byte} (hi : i.mnemonic = .DPREAD ∨ i.mnemonic = .DPWRITE)
    (hsel : selField v = selField s.pb) : { s with pb := v }.perform i = { s.perform i with pb := v } := by
  obtain ⟨hcnt, hlatch, hout⟩ := dataPort_uses_select hi hsel s.cfg s.cnt s.latch s.cbit s.vram
  simp only [State.perform, hcnt, hlatch, hout, pbAfter_dataPort hi]

/-- The low seven bits of a row read are the row's mask (30_encoding.md R58). -/
theorem rowRead_low {n : Nat} {r : Fin 3} (h : n = r.val) (r0 r1 r2 : RowMask) :
    (rowRead r0 r1 r2 (target n)).extractLsb' 0 7 = rowMask r0 r1 r2 r := by
  rw [target_eq_row_iff.2 h, rowRead]
  exact BitVec.eq_of_toNat_eq (by simpa using (rowMask r0 r1 r2 r).isLt)

/-- From 3 up no row is selected (20_memory.md R33). -/
theorem rowRead_idle {n : Nat} (h : 3 ≤ n) (r0 r1 r2 : RowMask) : rowRead r0 r1 r2 (target n) = 0xFF := by
  cases ht : target n with
  | row r =>
    have := target_eq_row_iff.1 ht
    omega
  | digit | nothing => rfl

/-- A data-port write of a byte with bit 7 set changes the selected digit and no other (20_memory.md R33). -/
theorem perform_dpwrite_get {p : Byte} (hp : p.getLsbD 7 = true) (s : State) (d : Fin 6) :
    if s.pb.toNat / 2 % 16 = d.val + 4
      then (s.perform (.dpwrite p)).cnt.get d = 15 ∧ (s.perform (.dpwrite p)).latch.get d = p.extractLsb' 0 7
      else (s.perform (.dpwrite p)).cnt.get d = s.cnt.get d ∧
        (s.perform (.dpwrite p)).latch.get d = s.latch.get d := by
  simp only [← selField_eq, ← target_eq_digit_iff]
  have hen : enField p = true := hp
  simp only [State.perform, cntAfter, latchAfter, get_setSelected, hen, and_true]
  split
  · exact ⟨rfl, rfl⟩
  · exact ⟨rfl, rfl⟩

/-- Settles O36: an access reads the select index of `PB` as it stands, and the latest PBWRITE wrote that. -/
theorem latestPortBWriteRoutesAccesses : Obligations.LatestPortBWriteRoutesAccesses := by
  refine ⟨fun i s t h => ?_, fun s v i hi hsel => ?_, fun s v is his => ?_⟩
  · obtain rfl := eq_perform_of_exec h
    exact ⟨rfl, pbAfter_ne⟩
  · rw [← selField_eq, ← selField_eq] at hsel
    exact ⟨_, exec_eq_perform i s, perform_with_pb hi hsel ▸ exec_eq_perform i _⟩
  · obtain ⟨u, hrun, hpb⟩ : ∃ u, runOps (.pbwrite v :: is) s = .next u ∧ u.pb = v :=
      ⟨_, runOps_eq_foldl _ s, foldl_pb his _⟩
    refine ⟨u, hrun, hpb, fun r0 r1 r2 => ?_, fun p hp => ?_⟩
    · refine ⟨_, _, exec_dpread r0 r1 r2 u, rfl, ?_⟩
      rw [hpb, selField_eq]
      exact ⟨fun h => rowRead_low (r := 0) h r0 r1 r2, fun h => rowRead_low (r := 1) h r0 r1 r2,
        fun h => rowRead_low (r := 2) h r0 r1 r2, fun h => rowRead_idle h r0 r1 r2⟩
    · refine ⟨_, exec_eq_perform (.dpwrite p) u, fun d => ?_⟩
      have hget := perform_dpwrite_get hp u d
      rwa [hpb] at hget

/-! ### Repeated operations -/

theorem setSelected_setSelected {α : Type} (x : Digits α) (t : Target) (v : Byte) (a : α) :
    (x.setSelected t v a).setSelected t v a = x.setSelected t v a := by
  refine digits_eq_of_get fun d => ?_
  rw [get_setSelected]
  split
  · next h => rw [get_setSelected, if_pos h]
  · rfl

/-- A read leaves the block as it was (20_memory.md R37). -/
theorem perform_read_toBlock {i : Instr}
    (hi : i.mnemonic = .DPREAD ∨ i.mnemonic = .PBREAD ∨ i.mnemonic = .VREAD ∨ i.mnemonic = .RENDER) (s : State) :
    (s.perform i).toBlock = s.toBlock := by
  cases i with
  | dpread | pbread | vread | render => rfl
  | _ => simp [Instr.mnemonic] at hi

/-- An operation repeated on the block it leaves unchanged has the same output again. -/
theorem perform_perform_of_toBlock {i : Instr} {s : State} (h : (s.perform i).toBlock = s.toBlock) :
    (s.perform i).perform i = s.perform i := by
  obtain ⟨b, o, hs, ht⟩ := exec_eq_answer i (s := s) (t := s.perform i) h.symm rfl
  rw [exec_eq_perform, answer_eq] at hs ht
  injection hs with hs
  injection ht with ht
  rw [ht, hs]

/-- A write that is no event leaves the same state when it is repeated (20_memory.md R37). -/
theorem perform_write_idempotent {i : Instr} {s : State} (hm : s.vram.wf)
    (hi : i.mnemonic = .DPWRITE ∨ i.mnemonic = .VWRITE ∨ i.mnemonic = .POLL ∨ i.mnemonic = .RESET) :
    (s.perform i).perform i = s.perform i := by
  cases i with
  | dpwrite v => simp only [State.perform, pbAfter, cntAfter, latchAfter, setSelected_setSelected]; rfl
  | vwrite a v => simp only [State.perform, vramAfter, write_write_same hm]; rfl
  | poll | reset => rfl
  | _ => simp [Instr.mnemonic] at hi

theorem clvlAfter_clvlAfter (i : Instr) (l : Bool) : clvlAfter i (clvlAfter i l) = clvlAfter i l := by
  cases i with
  | pbwrite v =>
    cases hv : v.getLsbD 5 with
    | true => rw [clvlAfter_emits hv, clvlAfter_emits hv]
    | false => rw [clvlAfter_silent hv]
  | _ => rfl

/-- A counter that is not 0 is changed by a tick (42_persistence.md R90). -/
theorem decay_ne {c : Count} (h : c ≠ 0) : decay c ≠ c := by
  intro heq
  have hnat := congrArg BitVec.toNat heq
  rw [decay_toNat] at hnat
  exact h (BitVec.eq_of_toNat_eq (show c.toNat = 0 by omega))

/-- Settles O49, row by row: a read leaves the block, a write finds what it wrote, and a sample or a tick counts on. -/
theorem readsAreFreeOfSideEffectsAndWritesIdempotent :
    Obligations.ReadsAreFreeOfSideEffectsAndWritesIdempotent := by
  refine ⟨fun i s hi => ?_, fun i s hm hi => ?_, fun v s => ?_, fun s => ?_, fun s d hd => ?_⟩
  · have hblock := perform_read_toBlock hi s
    exact ⟨_, exec_eq_perform i s, hblock,
      (exec_eq_perform i _).trans (congrArg _ (perform_perform_of_toBlock hblock))⟩
  · exact ⟨_, exec_eq_perform i s, (exec_eq_perform i _).trans (congrArg _ (perform_write_idempotent hm hi))⟩
  · refine ⟨_, _, exec_eq_perform (.pbwrite v) s, exec_eq_perform (.pbwrite v) _, ?_, fun hv => ⟨?_, rfl⟩⟩
    · simp only [State.perform, clvlAfter_clvlAfter]; rfl
    · simp [State.perform, outputFrom_emits hv]
  · exact ⟨_, exec_eq_perform (.stick true) s, rfl⟩
  · refine ⟨_, exec_eq_perform .ptick s, ?_⟩
    rw [perform_ptick_cnt, digits_get_map]
    exact decay_ne hd

/-! ### Pairs of operations -/

/-- Commuting is equality of the two blocks and of each operation's two outputs. -/
theorem commuteAt_iff {i j : Instr} {s : State} : CommuteAt i j s ↔
    ((s.perform i).perform j).toBlock = ((s.perform j).perform i).toBlock ∧
    (s.perform i).out = ((s.perform j).perform i).out ∧ ((s.perform i).perform j).out = (s.perform j).out := by
  constructor
  · rintro ⟨a, ab, b, ba, ha, hab, hb, hba, h⟩
    obtain rfl := eq_perform_of_exec ha
    obtain rfl := eq_perform_of_exec hab
    obtain rfl := eq_perform_of_exec hb
    obtain rfl := eq_perform_of_exec hba
    exact h
  · exact fun h =>
      ⟨_, _, _, _, exec_eq_perform i s, exec_eq_perform j _, exec_eq_perform j s, exec_eq_perform i _, h⟩

/-- `RUN` and `CBIT` are written by STICK alone and read by PBREAD alone. -/
theorem stick_commutes (p : Bool) {i : Instr} (hstick : i.mnemonic ≠ .STICK) (hread : i.mnemonic ≠ .PBREAD)
    (s : State) : CommuteAt (.stick p) i s := by
  rw [commuteAt_iff]
  cases i with
  | stick => exact absurd rfl hstick
  | pbread => exact absurd rfl hread
  | _ => exact ⟨rfl, rfl, rfl⟩

/-- An unqualified write leaves every counter as it was (40_mux.md R71). -/
theorem cntAfter_dpwrite_unqualified {v : Byte} {s : State} (h : ∀ d, ¬ Qualifies d (.dpwrite v) s)
    (cnt : Digits Count) :
    cntAfter (.dpwrite v) s.pb cnt = cnt := by
  refine digits_eq_of_get fun d => ?_
  rw [cntAfter, get_setSelected, if_neg (mt qualifies_dpwrite_iff.2 (h d))]

/-- The counters are loaded by a qualifying write alone, and RESET leaves nothing to tick. -/
theorem ptick_commutes {i : Instr} {s : State} (h : ∀ d, ¬ Qualifies d i s) : CommuteAt .ptick i s := by
  rw [commuteAt_iff]
  cases i with
  | dpwrite v =>
    refine ⟨?_, rfl, rfl⟩
    simp only [State.perform, pbAfter, latchAfter, cntAfter_dpwrite_unqualified h]
    rfl
  | _ => exact ⟨rfl, rfl, rfl⟩

theorem outputFrom_vread (c : Config) (a : Addr) (pb : Byte) (cbit : Bool) (m : Memory) :
    outputFrom c (.vread a) pb cbit m = Output.ofRead (m.read (vramIndex c a)) := rfl

/-- VideoRAM is read by VREAD and RENDER alone, and bytes at two addresses are apart. -/
theorem vwrite_commutes {a : Addr} (v : Byte) {i : Instr} {s : State} (hm : s.vram.wf)
    (hrender : i.mnemonic ≠ .RENDER)
    (hapart : ∀ b, (i = .vread b ∨ ∃ w, i = .vwrite b w) → vramIndex s.cfg b ≠ vramIndex s.cfg a) :
    CommuteAt (.vwrite a v) i s := by
  rw [commuteAt_iff]
  cases i with
  | render => exact absurd rfl hrender
  | vread b =>
    refine ⟨rfl, rfl, ?_⟩
    simp only [State.perform, outputFrom_vread, vramAfter, read_write_other _ _ (hapart b (.inl rfl))]
  | vwrite b w =>
    refine ⟨?_, rfl, rfl⟩
    simp only [State.perform, vramAfter, write_comm hm (hapart b (.inr ⟨w, rfl⟩)).symm]
    rfl
  | _ => exact ⟨rfl, rfl, rfl⟩

/-- `PB` and `CLVL` are neither read nor written by the ticks, the poll and the video operations. -/
theorem pbwrite_commutes (v : Byte) {i : Instr}
    (hi : i.mnemonic ∈ [Mnemonic.STICK, .PTICK, .POLL, .VREAD, .VWRITE, .RENDER]) (s : State) :
    CommuteAt (.pbwrite v) i s := by
  rw [commuteAt_iff]
  cases i with
  | stick | ptick | poll | vread | vwrite | render => exact ⟨rfl, rfl, rfl⟩
  | _ => simp [Instr.mnemonic] at hi

/-- Settles O50, row by row of the table. The pairs that do not commute: a PBWRITE of 0x08 moves the selection from row 0
to digit 0, one of 0x20 hides `CBIT` from PBREAD, and of two PBWRITEs, or a PBWRITE and RESET, the later decides
`PB`. -/
theorem commutingPairs : Obligations.CommutingPairs := by
  refine ⟨fun p i s hstick hread => stick_commutes p hstick hread s, fun i s => ptick_commutes,
    fun a v i s => vwrite_commutes v, fun v i s hi => pbwrite_commutes v hi s, ?_, fun d v s hq => ?_⟩
  · simp only [List.forall_mem_cons]
    refine ⟨⟨0x08, .dpread 0 0 0, State.reset, rfl, mt commuteAt_iff.1 (by decide)⟩,
      ⟨0x08, .dpwrite 0x80, State.reset, rfl, mt commuteAt_iff.1 (by decide)⟩,
      ⟨0x20, .pbread, { State.reset with cbit := true }, rfl, mt commuteAt_iff.1 (by decide)⟩,
      ⟨0x00, .pbwrite 0x01, State.reset, rfl, mt commuteAt_iff.1 (by decide)⟩,
      ⟨0x01, .reset, State.reset, rfl, mt commuteAt_iff.1 (by decide)⟩, by simp⟩
  · have hlater : Qualifies d (.dpwrite v) (s.perform .ptick) := hq
    refine ⟨_, _, runOps_eq_foldl _ s, runOps_eq_foldl _ s, ?_, perform_cnt_of_qualifies hlater⟩
    change ((s.perform (.dpwrite v)).cnt.map decay).get d = 14
    rw [digits_get_map, perform_cnt_of_qualifies hq]
    rfl

/-! ### The strobes -/

/-- The operation each strobe stands for, in the order of `PinsIn.strobes` (20_memory.md R45). -/
def PinsIn.strobeOps (p : PinsIn) : List Instr :=
  [.dpread p.row0 p.row1 p.row2, .dpwrite p.wdata, .pbread, .pbwrite p.wdata, .vread p.va, .vwrite p.va p.wdata,
    .poll p.rsIn p.stIn p.mdIn, .stick p.sampPos, .ptick, .render p.flip, .reset]

/-- The operations of a list whose strobes are active. -/
def strobedOf : List Bool → List Instr → List Instr
  | b :: bs, i :: is => strobed b i ++ strobedOf bs is
  | _, _ => []

theorem operations_eq_strobedOf (p : PinsIn) : p.operations = strobedOf p.strobes p.strobeOps := by
  simp only [PinsIn.operations, PinsIn.strobes, PinsIn.strobeOps, strobedOf, List.append_assoc, List.append_nil]

theorem strobed_length (b : Bool) (i : Instr) : (strobed b i).length = b.toNat := by
  cases b <;> rfl

theorem strobedOf_length {bs : List Bool} {is : List Instr} (h : bs.length = is.length) :
    (strobedOf bs is).length = bs.count true := by
  induction bs generalizing is with
  | nil => rfl
  | cons b bs ih =>
    cases is with
    | nil => cases h
    | cons i is =>
      rw [strobedOf, List.length_append, strobed_length, ih (Nat.succ.inj h), List.count_cons]
      cases b <;> simp [Nat.add_comm]

/-- The one active strobe `k`, numbered from `m` on, picks its operation; outside the list it picks none. -/
theorem strobedOf_oneHot (is : List Instr) (m k : Nat) :
    strobedOf ((List.range' m is.length).map fun j => j == k) is = if m ≤ k then is[k - m]?.toList else [] := by
  induction is generalizing m with
  | nil => simp [strobedOf]
  | cons i is ih =>
    rw [List.length_cons, List.range'_succ, List.map_cons, strobedOf, ih]
    obtain hlt | rfl | hgt := lt_trichotomy m k
    · obtain ⟨n, rfl⟩ := Nat.exists_eq_add_of_lt hlt
      simp [strobed, hlt.ne, hlt.le, show m + n + 1 - m = n + 1 by omega,
        show m + n + 1 - (m + 1) = n by omega]
    · simp [strobed]
    · simp [strobed, show ¬ m ≤ k by omega, show ¬ m + 1 ≤ k by omega, show m ≠ k by omega]

theorem operations_oneHot {p : PinsIn} {k : Nat} (h : p.strobes = (List.range 11).map fun j => j == k) :
    p.operations = p.strobeOps[k]?.toList := by
  rw [operations_eq_strobedOf, h, List.range_eq_range']
  exact (strobedOf_oneHot p.strobeOps 0 k).trans (if_pos k.zero_le)

theorem stepPins_of_operation {p : PinsIn} {i : Instr} (h : p.operations = [i]) (s : State) :
    stepPins p s = exec i s := by
  simp [stepPins, h]

theorem stepPins_of_no_operation {p : PinsIn} (h : p.operations = []) (s : State) : stepPins p s = exec .nop s := by
  simp [stepPins, h]

/-- Settles O51: the strobed operations are those of the active strobes, as many as there are active strobes. -/
theorem eachStrobeIsItsOperation : Obligations.EachStrobeIsItsOperation := by
  refine ⟨fun p s k hk => ?_, fun p s hcount => ?_, fun s => ⟨rfl, rfl, rfl, rfl, rfl, rfl⟩⟩
  · have hops := operations_oneHot hk
    obtain hlt | hge := Nat.lt_or_ge k 11
    · interval_cases k <;> exact stepPins_of_operation hops s
    · rw [List.getElem?_eq_none (show p.strobeOps.length ≤ k from hge)] at hops
      obtain ⟨n, rfl⟩ := Nat.exists_eq_add_of_le' hge
      exact stepPins_of_no_operation hops s
  · have hlen : p.operations.length = p.strobes.count true := by
      rw [operations_eq_strobedOf, strobedOf_length rfl]
    rw [← hlen] at hcount
    match hops : p.operations, hcount with
    | _ :: _ :: _, _ => simp [stepPins, hops]

end Sys2Proof.Machine

/-! ## The encoding and the data formats (30_encoding.md) -/

namespace Sys2Proof

open Sys2Proof.Machine

/-! ### The operation code -/

theorem opField_encode (i : Instr) : opField (encode i) = Laws.opcodeOf i := by
  cases i with
  | _ => exact opField_requestWord _ _

/-- `OP` is the top four bits of the word (30_encoding.md R51). -/
theorem opField_toNat (w : Request) : (opField w).toNat = w.toNat / 2 ^ 28 := by
  rw [opField, BitVec.extractLsb'_toNat, Nat.shiftRight_eq_div_pow]
  exact Nat.mod_eq_of_lt (Nat.div_lt_of_lt_mul w.isLt)

/-! ### Decoding what was encoded -/

theorem decode_encode (i : Instr) : decode (encode i) = i := by
  rw [decode, opField_encode]
  cases i with
  | dpread r0 r1 r2 => simp [Laws.opcodeOf, encode, row0Field_argK, row1Field_argK, row2Field_argK]
  | dpwrite v | pbwrite v => simp [Laws.opcodeOf, encode, dataField_argD]
  | stick b | render b => simp [Laws.opcodeOf, encode, arg0Field_argS]
  | poll rs st md => simp [Laws.opcodeOf, encode, arg0Field_argS, arg1Field_argS, arg2Field_argS]
  | vread a => simp [Laws.opcodeOf, encode, addrField_argV]
  | vwrite a v => simp [Laws.opcodeOf, encode, addrField_argV, dataField_argV]
  | _ => rfl

/-- Settles O4, format by format: the code selects the row of the table, and each field is read where it was written. -/
theorem decodeOfEncodeIsTheOperation : Obligations.DecodeOfEncodeIsTheOperation := decode_encode

/-! ### Encoding what was decoded: the used bits of each format -/

/-- A word is its code, its four unused bits and its argument. -/
theorem request_eq_append (w : Request) : w = opField w ++ w.extractLsb' 24 4 ++ w.extractLsb' 0 24 := by
  rw [opField, BitVec.extractLsb'_append_extractLsb'_eq_extractLsb' (start₂ := 28) (start₁ := 24) (len₁ := 4) rfl,
    BitVec.extractLsb'_append_extractLsb'_eq_extractLsb' (start₂ := 24) (start₁ := 0) (len₁ := 24) rfl,
    BitVec.extractLsb'_eq_self]

/-- A word under the mask of a format: its code, and the argument whose bits are those of the word in the mask. -/
theorem requestWord_of_bits {w : Request} {op : BitVec 4} {arg mask : BitVec 24} (hop : opField w = op)
    (harg : ∀ i < 24, arg.getLsbD i = (w.getLsbD i && mask.getLsbD i)) :
    requestWord op arg = w &&& requestWord 0xF mask := by
  have hmask : w.extractLsb' 0 24 &&& mask = arg := by
    refine BitVec.eq_of_getLsbD_eq fun i hi => ?_
    rw [harg i hi]
    simp [hi]
  have hmasked : requestWord op arg = (opField w &&& BitVec.allOnes 4) ++ (w.extractLsb' 24 4 &&& 0#4) ++
      (w.extractLsb' 0 24 &&& mask) := by
    rw [hmask, BitVec.and_allOnes, BitVec.and_zero, hop, requestWord]
  rw [hmasked, ← BitVec.and_append, ← BitVec.and_append, ← request_eq_append]
  rfl

theorem requestWord_argN_of_opField {w : Request} {op : BitVec 4} (hop : opField w = op) :
    requestWord op argN = w &&& 0xF0000000 :=
  requestWord_of_bits (mask := argN) hop fun i _ => by
    simp [argN_bit]

theorem requestWord_argD_of_opField {w : Request} {op : BitVec 4} (hop : opField w = op) :
    requestWord op (argD (dataField w)) = w &&& 0xF00000FF :=
  requestWord_of_bits (mask := argD (BitVec.allOnes 8)) hop fun i _ => by
    rw [argD_bit, argD_bit]
    split_ifs with hi <;> simp [dataField, hi, -BitVec.reduceAllOnes]

theorem requestWord_argK_of_opField {w : Request} {op : BitVec 4} (hop : opField w = op) :
    requestWord op (argK (row0Field w) (row1Field w) (row2Field w)) = w &&& 0xF07F7F7F :=
  requestWord_of_bits (mask := argK (BitVec.allOnes 7) (BitVec.allOnes 7) (BitVec.allOnes 7)) hop fun i hi => by
    rw [argK_bit, argK_bit]
    split_ifs with h7 h8 h15 h16
    · simp [row0Field, h7, -BitVec.reduceAllOnes]
    · rw [Bool.and_false]
    · simp [row1Field, show i - 8 < 7 by omega, show 8 + (i - 8) = i by omega, -BitVec.reduceAllOnes]
    · rw [Bool.and_false]
    · simp [row2Field, show 16 + (i - 16) = i by omega, Bool.and_comm, -BitVec.reduceAllOnes]

/-- Format S reads those of the three bits that its operation uses. -/
theorem requestWord_argS_of_opField {w : Request} {op : BitVec 4} (hop : opField w = op) (m2 m1 m0 : Bool) :
    requestWord op (argS (m2 && arg2Field w) (m1 && arg1Field w) (m0 && arg0Field w)) =
      w &&& requestWord 0xF (argS m2 m1 m0) :=
  requestWord_of_bits hop fun i _ => by
    rw [argS_bit, argS_bit]
    split_ifs with h0 h1 h2
    · rw [h0, arg0Field, Bool.and_comm]
    · rw [h1, arg1Field, Bool.and_comm]
    · rw [h2, arg2Field, Bool.and_comm]
    · rw [Bool.and_false]

theorem requestWord_argV_of_opField {w : Request} {op : BitVec 4} (hop : opField w = op) :
    requestWord op (argV (addrField w) (dataField w)) = w &&& 0xF0FFFFFF :=
  requestWord_of_bits (mask := argV (BitVec.allOnes 16) (BitVec.allOnes 8)) hop fun i _ => by
    rw [argV_bit, argV_bit]
    split_ifs with hi
    · simp [dataField, hi, -BitVec.reduceAllOnes]
    · simp [addrField, show i - 8 < 16 by omega, show 8 + (i - 8) = i by omega, -BitVec.reduceAllOnes]

theorem requestWord_argV_addr_of_opField {w : Request} {op : BitVec 4} (hop : opField w = op) :
    requestWord op (argV (addrField w) 0) = w &&& 0xF0FFFF00 :=
  requestWord_of_bits (mask := argV (BitVec.allOnes 16) 0) hop fun i _ => by
    rw [argV_bit, argV_bit]
    split_ifs with hi
    · simp
    · simp [addrField, show i - 8 < 16 by omega, show 8 + (i - 8) = i by omega, -BitVec.reduceAllOnes]

/-- Code by code, in the order of the table, by the format that each code has. -/
theorem encode_decode (w : Request) : encode (decode w) = w &&& usedBits w := by
  have hop : opField w = BitVec.ofNat 4 (opField w).toNat := by simp
  have hlt : (opField w).toNat < 16 := (opField w).isLt
  rw [decode, usedBits]
  generalize (opField w).toNat = code at hop hlt ⊢
  interval_cases code
  exacts [requestWord_argN_of_opField hop, requestWord_argK_of_opField hop, requestWord_argD_of_opField hop,
    requestWord_argN_of_opField hop, requestWord_argD_of_opField hop, requestWord_argS_of_opField hop false false true,
    requestWord_argN_of_opField hop, requestWord_argV_addr_of_opField hop, requestWord_argV_of_opField hop,
    requestWord_argS_of_opField hop false false true, requestWord_argS_of_opField hop true true true,
    requestWord_argN_of_opField hop, requestWord_argN_of_opField hop, requestWord_argN_of_opField hop,
    requestWord_argN_of_opField hop, requestWord_argN_of_opField hop]

/-- Settles O5, code by code, each by its format. -/
theorem encodeOfDecodeClearsUnusedBits : Obligations.EncodeOfDecodeClearsUnusedBits := encode_decode

/-! ### The code alone fixes the format -/

theorem opField_and (w m : Request) : opField (w &&& m) = opField w &&& opField m :=
  BitVec.extractLsb'_and

theorem usedBits_eq_of_opField_eq {w w' : Request} (h : opField w = opField w') : usedBits w = usedBits w' := by
  rw [usedBits, h, ← usedBits]

/-- Every format uses all four bits of the code. -/
theorem opField_usedBits (w : Request) : opField (usedBits w) = BitVec.allOnes 4 := by
  unfold usedBits
  split <;> rfl

theorem opField_and_usedBits (v w : Request) : opField (v &&& usedBits w) = opField v := by
  rw [opField_and, opField_usedBits, BitVec.and_allOnes]

theorem decode_and_usedBits (w : Request) : decode (w &&& usedBits w) = decode w := by
  rw [← encode_decode, decode_encode]

/-- Two words that differ only outside a mask are one word under it. -/
theorem and_eq_of_xor_and_eq_zero {a b mask : Request} (h : (a ^^^ b) &&& mask = 0) : a &&& mask = b &&& mask := by
  have hxor : (a &&& mask) ^^^ (b &&& mask) = (a ^^^ b) &&& mask :=
    BitVec.eq_of_toNat_eq Nat.and_xor_distrib_right.symm
  exact BitVec.xor_eq_zero_iff.1 (hxor.trans h)

/-- Settles O6: clearing the unused bits keeps the operation, and two words that differ only in those bits are one word
once they are cleared. -/
theorem unusedBitsAreIgnored : Obligations.UnusedBitsAreIgnored := by
  refine ⟨fun w w' h => ?_, fun i => ?_⟩
  · have hsame : w &&& usedBits w = w' &&& usedBits w := and_eq_of_xor_and_eq_zero h
    have hop : opField w = opField w' := by
      rw [← opField_and_usedBits w w, hsame, opField_and_usedBits]
    calc decode w
        = decode (w &&& usedBits w) := (decode_and_usedBits w).symm
      _ = decode (w' &&& usedBits w') := by rw [hsame, usedBits_eq_of_opField_eq hop]
      _ = decode w' := decode_and_usedBits w'
  · have hused : encode i = encode i &&& usedBits (encode i) := by
      rw [← encode_decode, decode_encode]
    rw [hused, BitVec.and_assoc, ← hused, BitVec.and_not_self]
    exact BitVec.and_zero

/-! ### The table of codes -/

theorem decode_mnemonic_eq_of_opField_eq {w w' : Request} (h : opField w = opField w') :
    (decode w).mnemonic = (decode w').mnemonic := by
  rw [decode, decode, h]
  split <;> rfl

theorem opTable_mask {row : OpRow} (h : row ∈ opTable) : row.mask = 0xF0000000 := by
  revert row
  decide

/-- No two rows have the same code. -/
theorem opTable_eq_of_matchBits_eq :
    ∀ row ∈ opTable, ∀ other ∈ opTable, other.matchBits = row.matchBits → other = row := by
  decide

/-- Every code has its row, which names what the code's own word decodes to. -/
theorem opTable_row_of_code (op : BitVec 4) : ∃ row ∈ opTable, row.matchBits = requestWord op argN ∧
    row.mnemonic = (decode (requestWord op argN)).mnemonic := by
  revert op
  decide

/-- Settles O7: the masked word is its code, which one row of the table has. -/
theorem oneTableRowPerWord : Obligations.OneTableRowPerWord := by
  intro w
  obtain ⟨row, hrow, hbits, hname⟩ := opTable_row_of_code (opField w)
  have hcode : ∀ r ∈ opTable, w &&& r.mask = row.matchBits := fun r hr => by
    rw [opTable_mask hr, hbits, requestWord_argN_of_opField rfl]
  refine ⟨row, hrow, hcode row hrow, ?_, fun other hother h => ?_⟩
  · exact hname.trans (decode_mnemonic_eq_of_opField_eq (opField_requestWord _ _))
  · exact opTable_eq_of_matchBits_eq row hrow other hother (h.symm.trans (hcode other hother))

/-! ### What a word decodes to -/

/-- Settles O8: the bits 31:28 that select the operation are the word divided by `2 ^ 28`. -/
theorem wordFieldsAreTheOperands : Obligations.WordFieldsAreTheOperands := by
  intro w
  rw [← opField_toNat]
  rfl

/-- Settles O3: each word is a literal, which the decoder evaluates. -/
theorem sampleWordsDecode : Obligations.SampleWordsDecode := by
  unfold Obligations.SampleWordsDecode
  decide

/-- The operations of code 0 and of the reserved codes (30_encoding.md R54). -/
def idleOps : List Instr := [.nop, .nopReservedC, .nopReservedD, .nopReservedE, .nopReservedF]

theorem exec_of_mem_idleOps {i : Instr} (h : i ∈ idleOps) (s : State) :
    exec i s = .next { s with out := Output.nothing } := by
  revert i
  simp only [idleOps, List.forall_mem_cons]
  exact ⟨rfl, rfl, rfl, rfl, rfl, by simp⟩

theorem mnemonic_of_mem_idleOps {i : Instr} (h : i ∈ idleOps) : i.mnemonic = .NOP := by
  revert i
  decide

theorem decode_mem_idleOps {w : Request} (h : w.toNat / 2 ^ 28 = 0 ∨ 0xC ≤ w.toNat / 2 ^ 28) :
    decode w ∈ idleOps := by
  have hlt : (opField w).toNat < 16 := (opField w).isLt
  rw [← opField_toNat] at h
  rw [decode]
  generalize (opField w).toNat = code at h hlt ⊢
  obtain rfl | hle := h
  · simp [idleOps]
  · interval_cases code <;> simp [idleOps]

/-- Settles O9: the words of code 0 and from 0xC up are those that decode to an idle operation. -/
theorem nopAndReservedCodesDoNothing : Obligations.NopAndReservedCodesDoNothing :=
  ⟨fun _ hi => exec_of_mem_idleOps hi, fun _ hw => ⟨mnemonic_of_mem_idleOps (decode_mem_idleOps hw),
    exec_of_mem_idleOps (decode_mem_idleOps hw)⟩, fun w => exec_next_exists (decode w)⟩

end Sys2Proof

namespace Sys2Proof.Machine

/-! ### The data-port write and the Port B read -/

/-- Settles O11: with bit 7 of the byte set it is the write to the selected digit, with bit 7 clear it is ignored. -/
theorem dpwriteSetsSelectedDigit : Obligations.DpwriteSetsSelectedDigit := by
  intro v s
  cases hv : v.getLsbD 7 with
  | true =>
    refine ⟨_, exec_eq_perform (.dpwrite v) s, rfl, fun d => ?_⟩
    simpa only [true_and] using perform_dpwrite_get hv s d
  | false =>
    refine ⟨{ s with out := Output.nothing }, ?_, rfl, fun d => ?_⟩
    · rw [exec_dpwrite, displayWrite_ignored _ _ hv, State.answer]
    · simp

/-- In write mode a Port B read is idle (30_encoding.md R59). -/
theorem portBRead_write_mode {pb : Byte} (h : pb.getLsbD 5 = true) (c : Bool) : portBRead pb c = 0xFF :=
  if_pos h

/-- Settles O12, by bit 5 of `PB`. -/
theorem pbreadReturnsComplementOfBit : Obligations.PbreadReturnsComplementOfBit := by
  intro s
  rw [exec_pbread, State.answer, Output.ofRead]
  cases hmode : s.pb.getLsbD 5 with
  | true => rw [portBRead_write_mode hmode, if_pos rfl]
  | false => rw [portBRead_read_mode hmode, if_neg Bool.false_ne_true]

/-! ### The pseudo-operations -/

theorem rowByte_eq (r : Fin 3) : rowByte r = BitVec.ofNat 8 (2 * r.val) := by
  rw [rowByte, Nat.shiftLeft_eq, Nat.mul_comm, Nat.pow_one]

theorem digitByte_eq (d : Fin 6) : digitByte d = BitVec.ofNat 8 (2 * (d.val + 4)) := by
  rw [digitByte, Nat.shiftLeft_eq, Nat.mul_comm, Nat.pow_one]

theorem showByte_eq (p : Pattern) : showByte p = BitVec.ofNat 8 (0x80 + p.toNat) := by
  have hsum : 0x80 + p.toNat = 0x80 ||| p.toNat := Nat.two_pow_add_eq_or_of_lt p.isLt 1
  rw [hsum, BitVec.ofNat_or, BitVec.ofNat_toNat, showByte]

theorem showByte_bit7 (p : Pattern) : (showByte p).getLsbD 7 = true := by
  simp [showByte]

theorem patField_showByte (p : Pattern) : patField (showByte p) = p := by
  have hp : p.toNat < 128 := p.isLt
  refine BitVec.eq_of_toNat_eq ?_
  rw [patField, BitVec.extractLsb'_toNat, showByte_eq, BitVec.toNat_ofNat, Nat.shiftRight_zero]
  omega

theorem selField_digitByte (d : Fin 6) : selField (digitByte d) = d.val + 4 := by
  revert d
  decide

theorem digitByte_bit5 (d : Fin 6) : (digitByte d).getLsbD 5 = false := by
  revert d
  decide

/-- A digit with a nonzero counter shows its latch (42_persistence.md R91). -/
theorem pinsOut_seg_of_cnt_ne_zero {s : State} {d : Fin 6} (h : s.cnt.get d ≠ 0) :
    s.pinsOut.seg.get d = s.latch.get d :=
  (digits_get_ofFn _ d).trans (if_neg h)

/-- `SHOW d, p` leaves `p` on digit `d` for 15 ticks and sends no level (30_encoding.md R62). -/
theorem runOps_showDigit (d : Fin 6) (p : Pattern) (s : State) :
    ∃ t, runOps (expandPseudo (.showDigit d p)) s = .next t ∧
      t.latch.get d = p ∧ t.cnt.get d = 15 ∧ t.pinsOut.seg.get d = p ∧ t.clvl = s.clvl := by
  have hsel : (digitByte d).toNat / 2 % 16 = d.val + 4 := (selField_eq _).symm.trans (selField_digitByte d)
  have hwrite := perform_dpwrite_get (showByte_bit7 p) (s.perform (.pbwrite (digitByte d))) d
  obtain ⟨hcnt, hlatch⟩ := (if_pos hsel).mp hwrite
  have hpat := hlatch.trans (patField_showByte p)
  refine ⟨_, runOps_eq_foldl _ s, hpat, hcnt, ?_, clvlAfter_silent (digitByte_bit5 d) s.clvl⟩
  exact (pinsOut_seg_of_cnt_ne_zero (hcnt ▸ by decide)).trans hpat

/-- Settles O37: each byte of the expansions is the sum that its shifts and masks come to. -/
theorem pseudoOperationsExpand : Obligations.PseudoOperationsExpand := by
  refine ⟨fun r => ?_, fun d => ?_, fun d p => ?_, rfl, rfl, fun _ => rfl, fun _ _ => rfl, runOps_showDigit⟩
  · rw [expandPseudo, rowByte_eq]
  · rw [expandPseudo, digitByte_eq]
  · rw [expandPseudo, expandPseudo, showByte_eq, List.singleton_append]

/-! ### Well-formed addresses -/

theorem wf_vread_iff {c : Config} {a : Addr} : (Instr.vread a).wf c = true ↔ a.toNat < c.vramSize :=
  decide_eq_true_iff

theorem wf_vwrite_iff {c : Config} {a : Addr} {v : Byte} : (Instr.vwrite a v).wf c = true ↔ a.toNat < c.vramSize :=
  decide_eq_true_iff

/-- With `VA_W = 16` every address is well formed (30_encoding.md R51). -/
theorem addr_lt_vramSize {c : Config} (hc : c.vaW = 16) (a : Addr) : a.toNat < c.vramSize := by
  rw [Config.vramSize, hc]
  exact a.isLt

/-- Settles O43: the index that the block sees is a well-formed address itself. -/
theorem wellFormedAddressIsTheIndex : Obligations.WellFormedAddressIsTheIndex := by
  refine ⟨fun s a ha => ⟨_, exec_vread a s, ?_⟩, fun s a b v ha hb => ?_, fun c i hc => ?_⟩
  · exact congrArg (fun n => some (s.vram.read n)) (vramIndex_of_wf (wf_vread_iff.1 ha))
  · refine ⟨_, _, exec_vwrite a v s, exec_vread b _, ?_⟩
    rw [ofRead_rdata, vramIndex_of_wf (wf_vwrite_iff.1 ha), vramIndex_of_wf (wf_vread_iff.1 hb)]
    split
    · next h => rw [h, read_write_same]
    · next h => rw [read_write_other _ _ (mt BitVec.eq_of_toNat_eq h)]
  · cases i with
    | vread a => exact wf_vread_iff.2 (addr_lt_vramSize hc a)
    | vwrite a v => exact wf_vwrite_iff.2 (addr_lt_vramSize hc a)
    | _ => rfl

/-! ### Trace lines -/

theorem fieldOfNat_toNat {n : Nat} (x : BitVec n) : fieldOfNat n x.toNat = some x := by
  rw [fieldOfNat, if_pos x.isLt, BitVec.ofNat_toNat, BitVec.setWidth_eq]

theorem bitOfNat_toNat (b : Bool) : bitOfNat b.toNat = some b := by
  cases b <;> rfl

/-- A trace line assembles to its operation, a reserved code's to NOP, which does the same (30_encoding.md R54, R61). -/
theorem assemble_traceOperands (i : Instr) :
    ∃ j, assemble i.mnemonic (traceOperands i) = some j ∧ ∀ s, exec j s = exec i s := by
  cases i with
  | nopReservedC | nopReservedD | nopReservedE | nopReservedF => exact ⟨.nop, rfl, fun _ => rfl⟩
  | nop | pbread | ptick | reset => exact ⟨_, rfl, fun _ => rfl⟩
  | _ =>
    refine ⟨_, ?_, fun _ => rfl⟩
    simp only [Instr.mnemonic, traceOperands, assemble, fieldOfNat_toNat, bitOfNat_toNat]
    rfl

/-- Settles O52: the line assembles to an operation that does the same, and its result is what that one produced. -/
theorem traceLineOfAnOperationChecks : Obligations.TraceLineOfAnOperationChecks := by
  intro i s t h
  obtain ⟨j, hj, hexec⟩ := assemble_traceOperands i
  simp [checkLine, traceLine, hj, hexec, h]

end Sys2Proof.Machine

/-! ## The multiplexer (40_mux.md) -/

namespace Sys2Proof.Machine

/-- The number of a row selects its mask, extended by a zero bit (30_encoding.md R58). -/
theorem rowRead_of_row {n : Nat} {r : Fin 3} (h : n = r.val) (r0 r1 r2 : RowMask) :
    rowRead r0 r1 r2 (target n) = (rowMask r0 r1 r2 r).setWidth 8 := by
  rw [target_eq_row_iff.2 h, rowRead, zext8]

/-- Settles O10: `SEL` is one of the three row numbers, or it selects no row. -/
theorem dpreadReturnsSelectedRow : Obligations.DpreadReturnsSelectedRow := by
  intro r0 r1 r2 s
  rw [exec_dpread, State.answer, Output.ofRead, ← selField_eq]
  split_ifs with h0 h1 h2
  · rw [rowRead_of_row (r := 0) h0, rowMask]
  · rw [rowRead_of_row (r := 1) h1, rowMask]
  · rw [rowRead_of_row (r := 2) h2, rowMask]
  · rw [rowRead_idle (by omega)]

/-- Settles O13, by bit 5 of the written byte. -/
theorem pbwriteStoresAndEmits : Obligations.PbwriteStoresAndEmits := by
  refine ⟨fun v s => ?_, rfl, rfl⟩
  cases hmode : v.getLsbD 5 with
  | true => rw [exec_pbwrite_emits hmode, State.answer, Output.ofCass, Level.ofBit, if_pos rfl, if_pos rfl]
  | false =>
    rw [exec_pbwrite_silent hmode, State.answer, Output.nothing, if_neg Bool.false_ne_true,
      if_neg Bool.false_ne_true]

end Sys2Proof.Machine

/-! ## The cassette decoder and encoder (41_cassette.md) -/

namespace Sys2Proof.Machine

/-! ### Counting and classifying a run -/

@[simp] theorem perform_run (s : State) (i : Instr) : (s.perform i).run = runAfter i s.run := rfl

/-- What a non-positive sample leaves in `CBIT`: the classification of the run it ends, if it ends one
(41_cassette.md R80, R83). -/
theorem nextCbit_nonpositive (n : Nat) (c : Bool) :
    nextCbit false n c = if n = 0 then c else if n < 8 then true else false := by
  split_ifs with h0 h8
  · rw [h0, nextCbit_no_run]
  · rw [nextCbit_run_end h0, classify_eq_true_iff.2 h8]
  · rw [nextCbit_run_end h0, classify_eq_false_iff.2 (Nat.not_lt.1 h8)]

/-- Settles O14: a positive sample adds to the run, a non-positive one clears it and classifies it. -/
theorem stickCountsAndClassifies : Obligations.StickCountsAndClassifies := by
  refine ⟨fun s => ?_, fun s => ?_⟩
  · rw [exec_stick, nextRun_positive, nextCbit_positive, State.answer]
  · rw [exec_stick, nextRun_nonpositive, nextCbit_nonpositive, State.answer]

/-- Of the operations other than a non-positive sample, a positive sample adds one to `RUN` and no other writes it. -/
theorem runAfter_of_ne_nonpositive {i : Instr} (hi : i ≠ .stick false) (n : Nat) :
    runAfter i n = n + if i == .stick true then 1 else 0 := by
  cases i with
  | stick pos =>
    cases pos with
    | true => rfl
    | false => exact absurd rfl hi
  | _ => rfl

/-- Between two non-positive samples `RUN` counts the positive ones, whatever operations stand between them. -/
theorem foldl_run {is : List Instr} (h : ∀ i ∈ is, i ≠ .stick false) (s : State) :
    (is.foldl State.perform s).run = s.run + is.count (.stick true) := by
  induction is generalizing s with
  | nil => rfl
  | cons i is ih =>
    obtain ⟨hi, his⟩ := List.forall_mem_cons.1 h
    rw [List.foldl_cons, ih his, perform_run, runAfter_of_ne_nonpositive hi, List.count_cons, Nat.add_assoc,
      Nat.add_comm (is.count _)]

/-- A non-positive sample starts the count anew (41_cassette.md R84, items 1 and 2). -/
theorem foldl_run_of_nonpositive {is : List Instr} (h : ∀ i ∈ is, i ≠ .stick false) (s : State) :
    (is.foldl State.perform (s.perform (.stick false))).run = is.count (.stick true) :=
  (foldl_run h _).trans (Nat.zero_add _)

/-! ### What is left of the unspecified `RUN` and `CBIT` -/

/-- The two states agree on everything but `CBIT` and the latest output, through which PBREAD shows `CBIT`. -/
def SameButCbit (s t : State) : Prop := ∃ c o, t = { s with cbit := c, out := o }

/-- No operation carries `CBIT` into any item but `CBIT`. -/
theorem perform_sameButCbit (i : Instr) {s t : State} (h : SameButCbit s t) :
    SameButCbit (s.perform i) (t.perform i) := by
  obtain ⟨c, o, rfl⟩ := h
  exact ⟨_, _, rfl⟩

theorem foldl_sameButCbit (is : List Instr) {s t : State} (h : SameButCbit s t) :
    SameButCbit (is.foldl State.perform s) (is.foldl State.perform t) :=
  List.foldl_rel (r := SameButCbit) h fun i _ _ _ => perform_sameButCbit i

theorem perform_nonpositive (s : State) : s.perform (.stick false) =
    { s with run := 0, cbit := nextCbit false s.run s.cbit, out := Output.nothing } := rfl

/-- A non-positive sample clears `RUN` whatever it was (41_cassette.md R84, item 1). -/
theorem perform_nonpositive_sameButCbit (s : State) (n : Nat) (c : Bool) :
    SameButCbit (s.perform (.stick false)) (State.perform { s with run := n, cbit := c } (.stick false)) :=
  ⟨_, _, rfl⟩

/-- The end of a run overwrites `CBIT`, so that nothing tells the two states apart any longer. -/
theorem perform_run_end_eq {s t : State} (h : SameButCbit s t) (hrun : s.run ≠ 0) :
    s.perform (.stick false) = t.perform (.stick false) := by
  obtain ⟨c, o, rfl⟩ := h
  simp only [perform_nonpositive, nextCbit_run_end hrun]

theorem foldl_stretch (s : State) (is : List Instr) :
    (Instr.stick false :: is ++ [Instr.stick false]).foldl State.perform s =
      (is.foldl State.perform (s.perform (.stick false))).perform (.stick false) := by
  rw [List.foldl_append, List.foldl_cons, List.foldl_cons, List.foldl_nil]

/-- Settles O38, item by item: `RUN` counts from the latest non-positive sample, and the end of a run overwrites `CBIT`
by what `RUN` alone determines. -/
theorem decoderProperties : Obligations.DecoderProperties := by
  refine ⟨fun s t h => ?_, fun s is his => ?_, fun i s t h hne => ?_, fun s s' t t' hrun hne h h' => ?_,
    fun s hne => ?_, fun s n c is his hmem => ?_⟩
  · obtain rfl := eq_perform_of_exec h
    rfl
  · exact ⟨_, runOps_eq_foldl _ s, foldl_run_of_nonpositive his s⟩
  · obtain rfl := eq_perform_of_exec h
    exact cbitAfter_ne hne
  · obtain rfl := eq_perform_of_exec h
    obtain rfl := eq_perform_of_exec h'
    calc nextCbit false s.run s.cbit
        = classify s.run := nextCbit_run_end hne _
      _ = classify s'.run := by rw [hrun]
      _ = nextCbit false s'.run s'.cbit := (nextCbit_run_end (hrun ▸ hne) _).symm
  · refine ⟨_, exec_stick false s, ?_⟩
    change nextCbit false s.run s.cbit = true ↔ _
    rw [nextCbit_run_end hne, classify_eq_true_iff, Nat.lt_succ_iff]
  · refine ⟨_, runOps_eq_foldl _ s, ?_⟩
    rw [runOps_eq_foldl, foldl_stretch, foldl_stretch]
    have hsame := foldl_sameButCbit is (perform_nonpositive_sameButCbit s n c)
    have hrun : (is.foldl State.perform (s.perform (.stick false))).run ≠ 0 := by
      rw [foldl_run_of_nonpositive his s]
      exact (List.count_pos_iff.2 hmem).ne'
    rw [perform_run_end_eq hsame hrun]

/-! ### The cassette output -/

/-- The bit that a level stands for (30_encoding.md R60). -/
def Level.bit (l : Level) : Bool := decide (l = .minus)

@[simp] theorem bit_ofBit (b : Bool) : (Level.ofBit b).bit = b := by
  cases b <;> rfl

theorem emittedLevel_emits {v : Byte} (h : v.getLsbD 5 = true) :
    emittedLevel (.pbwrite v) = some (Level.ofBit (v.getLsbD 7)) := if_pos h

theorem emittedLevel_silent {v : Byte} (h : v.getLsbD 5 = false) : emittedLevel (.pbwrite v) = none :=
  if_neg (Bool.eq_false_iff.1 h)

/-- An operation's cassette output depends on the operation alone (41_cassette.md R82). -/
theorem perform_cass (i : Instr) (s : State) : (s.perform i).out.cass = emittedLevel i := by
  cases i with
  | pbwrite v =>
    cases hv : v.getLsbD 5 with
    | true => rw [State.perform, outputFrom_emits hv, ofCass_cass, emittedLevel_emits hv]
    | false => rw [State.perform, outputFrom_silent hv, nothing_cass, emittedLevel_silent hv]
  | _ => rfl

/-- `CLVL` takes the level of the event an operation emits, if it emits one. -/
theorem clvlAfter_eq_elim (i : Instr) (c : Bool) : clvlAfter i c = (emittedLevel i).elim c Level.bit := by
  cases i with
  | pbwrite v =>
    cases hv : v.getLsbD 5 with
    | true => rw [clvlAfter_emits hv, emittedLevel_emits hv, Option.elim_some, bit_ofBit]
    | false => rw [clvlAfter_silent hv, emittedLevel_silent hv, Option.elim_none]
  | _ => rfl

/-- One event for each qualifying PBWRITE, in order (41_cassette.md R82). -/
theorem cassEvents_eq_filterMap (is : List Instr) (s : State) : cassEvents is s = is.filterMap emittedLevel := by
  unfold cassEvents
  induction is generalizing s with
  | nil => rfl
  | cons i is ih =>
    rw [outputsOf_cons_next (exec_eq_perform i s), List.filterMap_cons, List.filterMap_cons, perform_cass, ih]

/-- `CLVL` is held from the latest event, or from the start when there is none (10_state.md R18). -/
theorem foldl_clvl (is : List Instr) (s : State) :
    (is.foldl State.perform s).clvl = (is.filterMap emittedLevel).getLast?.elim s.clvl Level.bit := by
  induction is generalizing s with
  | nil => rfl
  | cons i is ih =>
    have hi : (s.perform i).clvl = (emittedLevel i).elim s.clvl Level.bit := clvlAfter_eq_elim i s.clvl
    rw [List.foldl_cons, ih, hi]
    cases he : emittedLevel i with
    | none => rw [List.filterMap_cons_none he, Option.elim_none]
    | some l =>
      rw [List.filterMap_cons_some he, List.getLast?_cons]
      cases (is.filterMap emittedLevel).getLast? <;> rfl

/-- Settles O41: the events are those of the operations, and `CLVL` holds the latest. -/
theorem cassetteOutputIsTheQualifyingWrites : Obligations.CassetteOutputIsTheQualifyingWrites := by
  intro is s
  refine ⟨_, runOps_eq_foldl is s, cassEvents_eq_filterMap is s, ?_⟩
  rw [cassEvents_eq_filterMap, foldl_clvl]
  cases (is.filterMap emittedLevel).getLast? with
  | none => rfl
  | some l => rfl

end Sys2Proof.Machine

/-! ## The display persistence timer (42_persistence.md) -/

namespace Sys2Proof.Machine

/-! ### One operation: what it does to a digit -/

theorem perform_ptick_cnt_get (s : State) (d : Fin 6) : (s.perform .ptick).cnt.get d = decay (s.cnt.get d) :=
  digits_get_map decay s.cnt d

/-- Beside a qualifying write and RESET, a tick takes one from a counter and no other operation writes it
(42_persistence.md R90, R93). -/
theorem perform_cnt_get {d : Fin 6} {i : Instr} {s : State} (hq : ¬ Qualifies d i s) (hreset : i ≠ .reset) :
    (s.perform i).cnt.get d = if i = .ptick then decay (s.cnt.get d) else s.cnt.get d := by
  cases i with
  | dpwrite v =>
    rw [qualifies_dpwrite_iff] at hq
    exact (get_setSelected _ _ _ _ _).trans (if_neg hq)
  | ptick => exact perform_ptick_cnt_get s d
  | reset => exact absurd rfl hreset
  | _ => rfl

/-- Only a qualifying write changes what the latch of a digit holds; a tick does not (42_persistence.md R90). -/
theorem perform_latch_get {d : Fin 6} {i : Instr} {s : State} (hq : ¬ Qualifies d i s) :
    (s.perform i).latch.get d = s.latch.get d := by
  cases i with
  | dpwrite v =>
    rw [qualifies_dpwrite_iff] at hq
    exact (get_setSelected _ _ _ _ _).trans (if_neg hq)
  | _ => rfl

theorem count_ne_zero_iff {c : Count} : c ≠ 0 ↔ 0 < c.toNat := by
  rw [Nat.pos_iff_ne_zero]
  exact not_congr (BitVec.toNat_inj (y := 0)).symm

/-! ### Many operations: the lifetime of a digit -/

/-- With no qualifying write to the digit and no RESET, its counter falls by the number of ticks, down to 0
(42_persistence.md R92). -/
theorem foldl_cnt_get {d : Fin 6} {is : List Instr} {s : State} (hq : NoWriteTo d is s) (hreset : .reset ∉ is) :
    ((is.foldl State.perform s).cnt.get d).toNat = (s.cnt.get d).toNat - is.count .ptick := by
  induction is generalizing s with
  | nil => rfl
  | cons i is ih =>
    obtain ⟨hi, hrest⟩ := hq
    obtain ⟨hne, hmem⟩ := not_or.1 (mt List.mem_cons.2 hreset)
    rw [List.foldl_cons, ih (hrest _ (exec_eq_perform i s)) hmem, perform_cnt_get hi (Ne.symm hne), List.count_cons]
    by_cases htick : i = .ptick
    · rw [if_pos htick, if_pos (beq_iff_eq.2 htick), decay_toNat]
      omega
    · rw [if_neg htick, if_neg (mt beq_iff_eq.1 htick), Nat.add_zero]

/-- The latch of a digit outlives everything but a qualifying write to it. -/
theorem foldl_latch_get {d : Fin 6} {is : List Instr} {s : State} (hq : NoWriteTo d is s) :
    (is.foldl State.perform s).latch.get d = s.latch.get d := by
  induction is generalizing s with
  | nil => rfl
  | cons i is ih =>
    obtain ⟨hi, hrest⟩ := hq
    rw [List.foldl_cons, ih (hrest _ (exec_eq_perform i s)), perform_latch_get hi]

/-! ### The obligations -/

/-- Settles O32: the write loads 15 and the pattern; each tick takes one and nothing touches the latch, so the pattern
shows for as long as the counter is not 0. -/
theorem digitLifetimeIsFifteenTicks : Obligations.DigitLifetimeIsFifteenTicks := by
  intro s d v hen hsel
  obtain ⟨hcnt, hlatch⟩ := (if_pos hsel).mp (perform_dpwrite_get hen s d)
  refine ⟨_, exec_eq_perform (.dpwrite v) s, fun is hquiet hreset => ⟨_, runOps_eq_foldl is _, ?_⟩⟩
  have hleft := foldl_cnt_get hquiet hreset
  rw [hcnt] at hleft
  refine ⟨hleft, fun hlit => ?_, fun hdark => pinsOut_seg_of_cnt_zero (BitVec.eq_of_toNat_eq ?_)⟩
  · have hpos : 0 < (15 : Count).toNat - is.count .ptick := Nat.sub_pos_of_lt (Nat.lt_succ_of_le hlit)
    rw [← hleft] at hpos
    rw [pinsOut_seg_of_cnt_ne_zero (count_ne_zero_iff.2 hpos), foldl_latch_get hquiet, hlatch]
  · exact hleft.trans (Nat.sub_eq_zero_of_le hdark)

/-- Settles O31: a qualifying write loads 15, RESET clears, and of the rest only a tick writes, by the clamped
subtraction. -/
theorem countersNeverWrap : Obligations.CountersNeverWrap := by
  refine ⟨fun i s t d h => ?_, fun s d hzero => ?_, fun c => Nat.le_of_lt_succ c.isLt⟩
  · obtain rfl := eq_perform_of_exec h
    by_cases hq : Qualifies d i s
    · exact .inr (.inr (.inl ⟨hq, perform_cnt_of_qualifies hq⟩))
    by_cases hreset : i = .reset
    · subst hreset
      exact .inr (.inr (.inr ⟨rfl, digits_get_fill 0 d⟩))
    rw [perform_cnt_get hq hreset]
    by_cases htick : i = .ptick
    · rw [if_pos htick]
      by_cases hzero : s.cnt.get d = 0
      · exact .inl (by rw [hzero, decay_zero])
      · refine .inr (.inl ⟨htick, hzero, ?_⟩)
        rw [decay_toNat, Nat.sub_add_cancel (count_ne_zero_iff.1 hzero)]
    · exact .inl (if_neg htick)
  · exact ⟨_, exec_eq_perform .ptick s, by rw [perform_ptick_cnt_get, hzero, decay_zero]⟩

/-- Settles O15: the decay is natural-number subtraction. -/
theorem ptickDecaysEveryCounter : Obligations.PtickDecaysEveryCounter := by
  intro s
  refine ⟨_, exec_eq_perform .ptick s, rfl, fun d => ?_⟩
  rw [perform_ptick_cnt_get, decay_toNat]

/-- Settles O30: after a tick a counter of 1 is 0 and one of 2 or more is not, and no tick writes the latch. -/
theorem digitIsBlankAtCounterZero : Obligations.DigitIsBlankAtCounterZero := by
  refine ⟨fun s d => digits_get_ofFn _ d, fun s d hone => ?_, fun s d htwo => ?_⟩
  · refine ⟨_, exec_eq_perform .ptick s, pinsOut_seg_of_cnt_zero ?_⟩
    rw [perform_ptick_cnt_get, hone]
    rfl
  · refine ⟨_, exec_eq_perform .ptick s, pinsOut_seg_of_cnt_ne_zero ?_⟩
    rw [perform_ptick_cnt_get, count_ne_zero_iff, decay_toNat]
    omega

end Sys2Proof.Machine

/-! ## The video RAM access path (43_video.md) -/

namespace Sys2Proof.Machine

/-! ### One byte of VideoRAM, through one operation and through many -/

theorem read_write (m : Memory) (a : Nat) (v : Byte) (b : Nat) :
    (m.write a v).read b = if b = a then v else m.read b := by
  split_ifs with h
  · rw [h, read_write_same]
  · exact read_write_other m v h

/-- An operation leaves every byte but the one that it writes, if it is a VWRITE (43_video.md R101). -/
theorem perform_vram_read {i : Instr} {s : State} {k : Nat} (h : ∀ b w, i = .vwrite b w → vramIndex s.cfg b ≠ k) :
    (s.perform i).vram.read k = s.vram.read k := by
  cases i with
  | vwrite b w => exact read_write_other _ _ (h b w rfl).symm
  | _ => rfl

/-- A byte is kept through any operations without a VWRITE to it (43_video.md R104, item 1). -/
theorem foldl_vram_read {is : List Instr} {s : State} {k : Nat}
    (h : ∀ b w, .vwrite b w ∈ is → vramIndex s.cfg b ≠ k) :
    (is.foldl State.perform s).vram.read k = s.vram.read k := by
  induction is generalizing s with
  | nil => rfl
  | cons i is ih =>
    have hrest : ∀ b w, .vwrite b w ∈ is → vramIndex s.cfg b ≠ k := fun b w hw => h b w (List.mem_cons_of_mem i hw)
    have hhead : ∀ b w, i = .vwrite b w → vramIndex s.cfg b ≠ k := fun b w hw => h b w (List.mem_cons.2 (.inl hw.symm))
    rw [List.foldl_cons, ih (s := s.perform i) hrest, perform_vram_read hhead]

theorem foldl_cfg (is : List Instr) (s : State) : (is.foldl State.perform s).cfg = s.cfg := by
  induction is generalizing s with
  | nil => rfl
  | cons i is ih => exact ih (s.perform i)

/-- VideoRAM is kept whole through any operations without a VWRITE (43_video.md R104, item 4). -/
theorem foldl_sameVideo {is : List Instr} (h : ∀ i ∈ is, i.mnemonic ≠ .VWRITE) (s : State) :
    SameVideo (is.foldl State.perform s) s := by
  refine ⟨?_, foldl_cfg is s⟩
  induction is generalizing s with
  | nil => rfl
  | cons i is ih =>
    obtain ⟨hi, his⟩ := List.forall_mem_cons.1 h
    exact (ih his (s.perform i)).trans (not_not.1 (mt vramAfter_ne hi))

theorem perform_render_out (flip : Bool) (s : State) :
    (s.perform (.render flip)).out = Output.ofFrame (renderFrame s.cfg flip s.vram) := rfl

theorem perform_render_out_eq {s t : State} (h : SameVideo s t) (flip : Bool) :
    (s.perform (.render flip)).out = (t.perform (.render flip)).out := by
  obtain ⟨hvram, hcfg⟩ := h
  rw [perform_render_out, perform_render_out, hvram, hcfg]

/-! ### The pixels of a frame -/

theorem getElem?_map_range {α : Type} (f : Nat → α) (n i : Nat) :
    ((List.range n).map f)[i]? = if i < n then some (f i) else none := by
  split_ifs with h
  · rw [List.getElem?_map, List.getElem?_range h, Option.map_some]
  · exact List.getElem?_eq_none (by simpa using h)

/-- A rendered frame has the pixel of 43_video.md R102 at every place inside it, and none outside. -/
theorem pix_renderFrame (c : Config) (flip : Bool) (m : Memory) (x y : Nat) :
    (renderFrame c flip m).pix x y =
      if x < 8 * c.rowBytes ∧ y < c.rows then some (pixel c flip m x y) else none := by
  rw [Frame.pix, renderFrame, getElem?_map_range]
  by_cases hy : y < c.rows
  · rw [if_pos hy, Option.bind_some, getElem?_map_range]
    simp only [hy, and_true]
  · rw [if_neg hy, Option.bind_none, if_neg fun h => hy h.2]

theorem shownRow_lt {c : Config} {r : Nat} (h : r < c.rows) (flip : Bool) : shownRow c flip r < c.rows := by
  cases flip with
  | false => exact h
  | true => exact Nat.lt_of_le_of_lt (Nat.sub_le _ _) (Nat.sub_one_lt_of_lt h)

/-- The line that shows row `r` is the row that line `r` shows: flipping the lines twice changes nothing. -/
theorem shownRow_shownRow {c : Config} {r : Nat} (h : r < c.rows) (flip : Bool) :
    shownRow c flip (shownRow c flip r) = r := by
  cases flip with
  | false => rfl
  | true => exact Nat.sub_sub_self (Nat.le_sub_one_of_lt h)

/-- Bit `b` of the byte in column `j` of row `r` is the pixel at column `8 * j + 7 - b` of the line that shows `r`. -/
theorem pixel_shownRow {c : Config} {r j b : Nat} (hr : r < c.rows) (hb : b < 8) (flip : Bool) (m : Memory) :
    pixel c flip m (8 * j + 7 - b) (shownRow c flip r) = (m.read (r * c.rowBytes + j)).getLsbD b := by
  have hbyte : (8 * j + 7 - b) / 8 = j := by omega
  have hbit : 7 - (8 * j + 7 - b) % 8 = b := by omega
  rw [pixel, shownRow_shownRow hr, hbyte, hbit]

/-! ### The obligations -/

/-- Settles O17: the block writes the one byte at the index it sees. -/
theorem vwriteStoresOneByte : Obligations.VwriteStoresOneByte :=
  fun a v s => ⟨_, exec_vwrite a v s, rfl, read_write s.vram (vramIndex s.cfg a) v⟩

/-- Settles O18: the frame of the buffer as it stands, pixel by pixel. -/
theorem renderMapsBitsToPixels : Obligations.RenderMapsBitsToPixels :=
  fun flip s => ⟨_, exec_render flip s, pix_renderFrame s.cfg flip s.vram⟩

/-- Settles O42: a byte keeps its value through everything but a VWRITE to it, and VideoRAM through everything but a
VWRITE. -/
theorem videoRoundTripLaws : Obligations.VideoRoundTripLaws := by
  refine ⟨fun s a v is hapart => ?_, fun s a b v hapart => ?_, fun s a v w => ?_, fun s flip is his => ?_⟩
  · refine ⟨_, _, runOps_eq_foldl _ s, exec_vread a _, congrArg some ?_⟩
    rw [foldl_cfg, List.foldl_cons]
    exact (foldl_vram_read (s := s.perform (.vwrite a v)) hapart).trans (read_write_same _ _ v)
  · refine ⟨_, _, _, exec_vwrite a v s, exec_vread b s, exec_vread b _, ?_⟩
    exact congrArg Output.ofRead (read_write_other s.vram v hapart)
  · exact ⟨_, runOps_eq_foldl _ s, read_write_same _ _ w⟩
  · exact ⟨_, _, _, exec_eq_perform _ s, runOps_eq_foldl is _, exec_eq_perform _ _,
      perform_render_out_eq (foldl_sameVideo his (s.perform (.render flip))) flip⟩

/-- Settles O45: byte `a` stands in row `a / ROW_BYTES` and column `a % ROW_BYTES`, and a pixel's place gives row, column
and bit back. -/
theorem everyShownBitIsOnePixel : Obligations.EveryShownBitIsOnePixel := by
  refine ⟨fun s flip a b ha hb => ?_, fun c a b a' b' _ _ hb hb' hx hy => ?_⟩
  · have hbytes : 0 < s.cfg.rowBytes := Nat.pos_of_mul_pos_right (Nat.zero_lt_of_lt ha)
    have hrow : a / s.cfg.rowBytes < s.cfg.rows := Nat.div_lt_of_lt_mul ha
    have hcolumn : a % s.cfg.rowBytes < s.cfg.rowBytes := Nat.mod_lt a hbytes
    refine ⟨_, _, exec_render flip s, rfl, ?_⟩
    change (renderFrame s.cfg flip s.vram).pix _ (shownRow s.cfg flip (a / s.cfg.rowBytes)) = _
    rw [pix_renderFrame, if_pos ⟨by omega, shownRow_lt hrow flip⟩, pixel_shownRow hrow hb, Nat.div_add_mod']
  · have hcolumn : a % c.rowBytes = a' % c.rowBytes := by omega
    refine ⟨?_, by omega⟩
    rw [← Nat.div_add_mod' a c.rowBytes, hy, hcolumn, Nat.div_add_mod']

/-- Settles O16: the byte at the index that the block sees is the whole of the answer. -/
theorem vreadReturnsStoredByte : Obligations.VreadReturnsStoredByte := exec_vread

end Sys2Proof.Machine

/-! ## The reset and interrupt lines (44_lines.md) -/

namespace Sys2Proof.Machine

/-- POLL copies two of its inputs to the lines and reads nothing of the state (44_lines.md R110). -/
theorem perform_poll (rs st md : Bool) (s : State) :
    s.perform (.poll rs st md) = { s with rstl := rs, irql := st, out := Output.nothing } := rfl

/-- Only POLL writes the lines, and no item and no output takes a line among what it depends on. -/
theorem poll_commutes (rs st md : Bool) {i : Instr} (hi : i.mnemonic ≠ .POLL) (s : State) :
    CommuteAt (.poll rs st md) i s := by
  rw [commuteAt_iff, perform_poll, perform_poll]
  cases i with
  | poll => exact absurd rfl hi
  | _ => exact ⟨rfl, rfl, rfl⟩

/-- Settles O47. The pair that does not commute: two polls of opposite inputs, of which the later decides the lines. -/
theorem pollIsIndependentOfTheRest : Obligations.PollIsIndependentOfTheRest := by
  refine ⟨fun rs st md s t h => ?_, fun i s t h hi => ?_, fun rs st md i s hi => poll_commutes rs st md hi s,
    .poll true true false, .poll false false false, State.reset, rfl, rfl, mt commuteAt_iff.1 (by decide)⟩
  · obtain rfl := eq_perform_of_exec h
    rfl
  · obtain rfl := eq_perform_of_exec h
    exact ⟨not_not.1 (mt rstlAfter_ne hi), not_not.1 (mt irqlAfter_ne hi)⟩

/-- Settles O19: a line that follows its input's edges holds its input, whatever it held before. -/
theorem pollMakesLinesFollowInputs : Obligations.PollMakesLinesFollowInputs := exec_poll

/-- Settles O20: the answer of POLL, written out, does not name the run-mode input. -/
theorem runModeInputIsIgnored : Obligations.RunModeInputIsIgnored :=
  fun rs st s => ⟨{ s with rstl := rs, irql := st, out := Output.nothing }, fun md => exec_poll rs st md s⟩

end Sys2Proof.Machine

/-! ## Exceptions: there are none, and the cases that look like errors do nothing (60_exceptions.md) -/

namespace Sys2Proof.Machine

/-- Settles O23: a step is the operation of the next request, or NOP when none waits, and every operation answers. -/
theorem noOperationCanFail : Obligations.NoOperationCanFail := by
  refine ⟨exec_next_exists, fun s => ?_⟩
  cases hp : s.pending with
  | nil =>
    rw [step_of_pending_nil hp]
    exact exec_next_exists .nop s
  | cons w rest =>
    rw [step_of_pending_cons hp]
    exact exec_next_exists (decode w) { s with pending := rest }

/-- With no digit selected, a data-port write leaves the block as it was (40_mux.md R71). -/
theorem displayWrite_no_digit {n : Nat} (h : n ≤ 3 ∨ 10 ≤ n) (b : Block) (v : Byte) :
    b.displayWrite (target n) v = b := by
  cases ht : target n with
  | row r => exact displayWrite_row b r v
  | nothing => exact displayWrite_nothing b v
  | digit d =>
    have hn := target_eq_digit_iff.1 ht
    have hd := d.isLt
    omega

/-- A tick leaves counters that are all 0 (42_persistence.md R90). -/
theorem map_decay_of_zero {cnt : Digits Count} (h : ∀ d, cnt.get d = 0) : cnt.map decay = cnt :=
  digits_eq_of_get fun d => by rw [digits_get_map, h d, decay_zero]

/-- Settles O24, row by row of the table of R121: nothing is selected, no bit asks for the effect, or the value written
stands there already. -/
theorem definedNoOpsChangeNothing : Obligations.DefinedNoOpsChangeNothing := by
  refine ⟨fun r0 r1 r2 s hsel => ?_, fun v s hsel => ?_, fun v s hbit7 => ?_, fun v s hbit5 => ?_, fun s hrun => ?_,
    fun s hcnt => ?_, fun md s => ?_, fun w s hcode => ?_⟩
  · rw [exec_dpread, selField_eq, rowRead_idle hsel, State.answer, Output.ofRead]
  · rw [exec_dpwrite, selField_eq, displayWrite_no_digit hsel, State.answer]
  · rw [exec_dpwrite, displayWrite_ignored _ _ hbit7, State.answer]
  · rw [exec_pbwrite_silent hbit5, State.answer]
  · rw [exec_stick, nextRun_nonpositive, hrun, nextCbit_no_run, ← hrun, State.answer]
  · rw [exec_ptick, map_decay_of_zero hcnt, State.answer]
  · rw [exec_poll, State.answer]
  · exact exec_of_mem_idleOps (decode_mem_idleOps (.inr hcode)) s

end Sys2Proof.Machine

/-! ## Reset and hazards (70_reset_and_hazards.md) -/

namespace Sys2Proof.Machine

/-- Settles O21: the answer of RESET with the counters filled with 0 is the state written out. -/
theorem resetClearsPortAndCounters : Obligations.ResetClearsPortAndCounters := exec_reset

/-- What an operation answers is not among what the digit outputs depend on (42_persistence.md R91). -/
theorem pinsOut_seg_with_out (s : State) (o : Output) : { s with out := o }.pinsOut.seg = s.pinsOut.seg := rfl

/-- Settles O33: 0x80 writes the pattern of a blank digit to the latch, which shows behind a counter of 15; a write of a
byte with bit 7 clear is one of the operations that do nothing. -/
theorem writingHex80BlanksADigit : Obligations.WritingHex80BlanksADigit := by
  obtain ⟨-, -, hignored, -⟩ := definedNoOpsChangeNothing
  refine ⟨fun s d hsel => ?_, fun s v hbit7 => ⟨_, hignored v s hbit7, pinsOut_seg_with_out s _⟩⟩
  obtain ⟨hcnt, hlatch⟩ := (if_pos hsel).mp (perform_dpwrite_get (p := 0x80) rfl s d)
  have hlit : (s.perform (.dpwrite 0x80)).cnt.get d ≠ 0 := hcnt ▸ by decide
  exact ⟨_, exec_eq_perform (.dpwrite 0x80) s, hlatch, hcnt, (pinsOut_seg_of_cnt_ne_zero hlit).trans hlatch⟩

end Sys2Proof.Machine
